-- ==== Sys2Proof/Word.lean ====
section
/-! DEFINITION. The word types of the block: bytes on the wire, 16-bit and 32-bit results (00_scope.md R6, R8). -/

namespace Sys2Proof

/-- One byte of IBUF, of CMD or of a converter operand. -/
abbrev Byte := BitVec 8

/-- A header word (R29), a subseconds value (R31). -/
abbrev Word16 := BitVec 16

/-- A seconds value (R31), a conversion result (R33). -/
abbrev Word32 := BitVec 32

end Sys2Proof
end

