-- ==== Sys2Proof/Syntax.lean ====
section
/-! DEFINITION. The block's commands, one constructor per row of spec/opcode_table.json (30_encoding.md R82), and the host
actions that drive it (30_encoding.md R86; 70_reset_and_hazards.md R190, R192). -/

namespace Sys2Proof

/-- A command. None has an operand field: operands are implicit register reads (R80, R83). -/
inductive Instr where
  /-- START, opcode 0x01 (R100) -/
  | start
  /-- READ, opcode 0x02 (R101) -/
  | read
  /-- DECPH, opcode 0x10 (R122) -/
  | decph
  /-- DECSH, opcode 0x11 (R123) -/
  | decsh
  /-- DECTH, opcode 0x12 (R124) -/
  | decth
  /-- CVT16, opcode 0x20 (R152) -/
  | cvt16
  /-- CVT32, opcode 0x21 (R153) -/
  | cvt32
deriving DecidableEq, Repr

/-- The named registers of the register map (R35). -/
inductive Reg where
  | cmd | arg | status | errKind | errNeeded | errAvail | pos | len | rem | viewBase | viewLen
  | phW0 | phW1 | phW2 | phApid | phShf | phType | phVer | phSeq | phSegf | phPlen
  | shSeconds | shSubsec
  | cvtB0 | cvtB1 | cvtB2 | cvtB3 | cvtOut | cvtHimg0 | cvtHimg1 | cvtHimg2 | cvtHimg3
deriving DecidableEq, Repr

/-- One action of the host. A register index and a written value are plain numbers of any size (log 11). -/
inductive HostAction where
  /-- `WR <reg>, <value>` (R86); a write to CMD issues a command (R25) -/
  | write (index value : Nat)
  /-- `RD <reg>` (R86) -/
  | read (index : Nat)
  /-- bind IBUF to a buffer of these bytes, offset 0 first (R192 duty 1) -/
  | bind (bytes : List Byte)
  /-- give one offset of the buffer a byte; the host owns the buffer (R192 duty 4 says when it must not change it). At an offset
  the buffer does not have, DESIGN CHOICE: the offset becomes readable (log 16) -/
  | store (offset : Nat) (byte : Byte)
  /-- reset the block (R190) -/
  | reset
deriving DecidableEq, Repr

end Sys2Proof
end

