-- ==== Sys2Proof/Decode.lean ====
section
/-! DEFINITION. The command decoder and encoder, format CMD8 (30_encoding.md R80, R82, R84, R85). -/

namespace Sys2Proof

/-- What the decoder makes of an opcode: a command, or a rejection that names the reserved opcode (R84). -/
inductive Decoded where
  | command (i : Instr)
  | reserved (opc : Byte)
deriving DecidableEq, Repr

/-- The decoder, total on any 8-bit value: the opcode map of R82, every other value reserved (R84). -/
def decode (opc : Byte) : Decoded :=
  if opc = 0x01#8 then .command .start
  else if opc = 0x02#8 then .command .read
  else if opc = 0x10#8 then .command .decph
  else if opc = 0x11#8 then .command .decsh
  else if opc = 0x12#8 then .command .decth
  else if opc = 0x20#8 then .command .cvt16
  else if opc = 0x21#8 then .command .cvt32
  else .reserved opc

/-- The encoder: the opcode of a command (R82). -/
def encode : Instr → Byte
  | .start => 0x01#8
  | .read => 0x02#8
  | .decph => 0x10#8
  | .decsh => 0x11#8
  | .decth => 0x12#8
  | .cvt16 => 0x20#8
  | .cvt32 => 0x21#8

/-- The `nbits` bits of a table word as one CMD value; none when they do not fit the 8 bits every command has (R85). -/
def tableOpcode (nbits w : Nat) : Option Byte :=
  if w % 2 ^ nbits < 256 then some (BitVec.ofNat 8 (w % 2 ^ nbits)) else none

/-- The command the decoder reads from a word numbered as the opcode table numbers it. -/
def decodeTableWord (nbits w : Nat) : Option Instr :=
  match tableOpcode nbits w with
  | none => none
  | some opc =>
    match decode opc with
    | .command i => some i
    | .reserved _ => none

end Sys2Proof
end

