-- ==== Sys2Proof/Config.lean ====
section
/-! DEFINITION. What an implementation fixes and what the spec leaves open: the two OPEN parameters (00_scope.md R5) and
the free values (10_state.md R43; 42_byte_order.md R151; 93_implementation_defined.md I4). No constant here has a known value. -/

namespace Sys2Proof

/-- The byte order of the host, parameter HOST_ENDIAN (R5). -/
inductive Endian where
  | little
  | big
deriving DecidableEq, Repr, Inhabited

/-- By how much ADDR_W exceeds its least legal value, 8 (R5: "an integer ≥ 8"). OPEN, so no body (log 1). -/
opaque Config.addrWAbove8 : Nat

/-- Parameter ADDR_W of the machine `State.reset` describes (R5). -/
def Config.addrW : Nat := 8 + Config.addrWAbove8

/-- Parameter HOST_ENDIAN of the machine `State.reset` describes (R5). OPEN, so no body (log 1). -/
opaque Config.hostEndian : Endian

/-- Content of PH_W0 after the reset that makes draw number `draw`: unspecified (R42, R43; log 3). -/
opaque Config.resetPhW0 (draw : Nat) : Word16

/-- Content of PH_W1 after a reset: unspecified (R42, R43; log 3). -/
opaque Config.resetPhW1 (draw : Nat) : Word16

/-- Content of PH_W2 after a reset: unspecified (R42, R43; log 3). -/
opaque Config.resetPhW2 (draw : Nat) : Word16

/-- Content of SH_SECONDS after a reset: unspecified (R42, R43; log 3). -/
opaque Config.resetShSeconds (draw : Nat) : Word32

/-- Content of SH_SUBSEC after a reset: unspecified (R42, R43; log 3). -/
opaque Config.resetShSubsec (draw : Nat) : Word16

/-- Content of CVT_OUT after a reset: unspecified (R42, R43; log 3). -/
opaque Config.resetCvtOut (draw : Nat) : Word32

/-- Byte `k` of the host byte image while CVT_VALID = 0: unspecified (R151), a function of CVT_OUT's content (log 4). -/
opaque Config.unconvertedImage (cvtOut : Word32) (k : Nat) : Byte

/-- What fetch number `draw` reads at an IBUF offset whose byte the host has changed during the pass:
any value (93_implementation_defined.md I4; log 7). -/
opaque Config.changedByte (draw offset : Nat) : Byte

end Sys2Proof
end

