-- ==== Sys2Proof/Machine/State.lean ====
section
/-! DEFINITION. The state of the block, the reasons it can stop, and the state after reset (10_state.md R20 to R43). -/

namespace Sys2Proof.Machine

/-- Why the machine stops with a fault. -/
inductive Fault where
  /-- Raised by DECPH, DECSH and DECTH when the bound buffer has no byte at an offset below LEN that the command must
  fetch: duty 1 of R192 is broken and "A model with a bounded IBUF should fault a read beyond its end, naming the command"
  (93_implementation_defined.md I5; log 5). Safe: the spec says nothing of what such a command reads. -/
  | ibufUnreadable (command : Instr)
deriving DecidableEq, Repr

/-- Why the machine answers nothing. -/
inductive Refusal where
  /-- Raised by an arm of `exec` whose instruction has no meaning yet; no arm is left so. Safe. -/
  | notModelled (mnemonic : String)
  /-- Raised by a host write to CMD of a value that does not fit its 8 bits, which is no command (R80; log 10). Safe. -/
  | overwideCommand (value : Nat)
deriving DecidableEq, Repr

/-- A byte-addressed memory: (offset, byte) pairs, offsets strictly rising (`Memory.wf`). -/
abbrev Memory := List Host.Cell

/-- The state. Registers of ADDR_W bits are numbers below 2 ^ ADDR_W: cursor arithmetic is exact (00_scope.md R11; log 2). -/
structure State where
  /-- parameter ADDR_W (R5); no step changes it (log 1) -/
  addrW : Nat
  /-- parameter HOST_ENDIAN (R5); no step changes it (log 1) -/
  hostEndian : Endian
  /-- POS (R22) -/
  pos : Nat
  /-- LEN (R22) -/
  len : Nat
  /-- ARG (R26) -/
  arg : Nat
  /-- STATUS bit 0, ERR (R27) -/
  err : Bool
  /-- STATUS bit 2, PH_VALID (R27) -/
  phValid : Bool
  /-- STATUS bit 3, SH_VALID (R27) -/
  shValid : Bool
  /-- STATUS bit 4, TH_VALID (R27, R34) -/
  thValid : Bool
  /-- STATUS bit 5, TH_SEC (R27, R34) -/
  thSec : Bool
  /-- STATUS bit 6, CVT_VALID (R27) -/
  cvtValid : Bool
  /-- STATUS bit 7, CVT_W32 (R27) -/
  cvtW32 : Bool
  /-- ERR_KIND (R28) -/
  errKind : Byte
  /-- ERR_NEEDED (R28) -/
  errNeeded : Nat
  /-- ERR_AVAIL (R28) -/
  errAvail : Nat
  /-- VIEW_BASE (R24) -/
  viewBase : Nat
  /-- VIEW_LEN (R24) -/
  viewLen : Nat
  /-- PH_W0, the stream_id word (R29) -/
  phW0 : Word16
  /-- PH_W1, the sequence word (R29) -/
  phW1 : Word16
  /-- PH_W2, the length word (R29) -/
  phW2 : Word16
  /-- SH_SECONDS (R31) -/
  shSeconds : Word32
  /-- SH_SUBSEC (R31) -/
  shSubsec : Word16
  /-- CVT_B0, first on the wire (R32) -/
  cvtB0 : Byte
  /-- CVT_B1 (R32) -/
  cvtB1 : Byte
  /-- CVT_B2 (R32) -/
  cvtB2 : Byte
  /-- CVT_B3 (R32) -/
  cvtB3 : Byte
  /-- CVT_OUT (R33) -/
  cvtOut : Word32
  /-- IBUF as the host has it bound now (20_memory.md R60; log 5) -/
  ibuf : Memory
  /-- the model's own: offsets below LEN whose byte the host has changed since the last START, rising (log 7) -/
  changed : List Nat
  /-- the model's own: how many free values have been drawn (log 8) -/
  draws : Nat
  /-- the model's own: the host's actions not yet performed, oldest first (log 9) -/
  pending : List HostAction
  /-- the model's own: what the host's latest register read returned (log 12) -/
  lastRead : Option Nat
deriving DecidableEq, Repr

/-- The state a reset leaves (R42, R190). The parameters, IBUF and the host's side are given to it; the result registers
hold free values, draw number `draw` (R43; log 3). -/
def State.resetOf (addrW : Nat) (hostEndian : Endian) (ibuf : Memory) (draw : Nat) (pending : List HostAction)
    (lastRead : Option Nat) : State where
  addrW := addrW
  hostEndian := hostEndian
  pos := 0
  len := 0
  arg := 0
  err := false
  phValid := false
  shValid := false
  thValid := false
  thSec := false
  cvtValid := false
  cvtW32 := false
  errKind := 0#8
  errNeeded := 0
  errAvail := 0
  viewBase := 0
  viewLen := 0
  phW0 := Config.resetPhW0 draw
  phW1 := Config.resetPhW1 draw
  phW2 := Config.resetPhW2 draw
  shSeconds := Config.resetShSeconds draw
  shSubsec := Config.resetShSubsec draw
  cvtB0 := 0#8
  cvtB1 := 0#8
  cvtB2 := 0#8
  cvtB3 := 0#8
  cvtOut := Config.resetCvtOut draw
  ibuf := ibuf
  changed := []
  draws := draw + 1
  pending := pending
  lastRead := lastRead

/-- The machine right after reset (R42): no buffer bound, no host action pending, the parameters OPEN. -/
def State.reset : State := State.resetOf Config.addrW Config.hostEndian [] 0 [] none

end Sys2Proof.Machine
end

