-- ==== Sys2Proof/Machine/Flags.lean ====
section
/-! DEFINITION. The derived REM and AT_END (10_state.md R23), the STATUS byte (R27) and the flag writes the commands share. -/

namespace Sys2Proof.Machine

/-- REM (R23). Exact where POS ≤ LEN, which every step keeps (`State.Inv`); 0 in the other states, which no run reaches. -/
def remaining (s : State) : Nat := s.len - s.pos

/-- STATUS.AT_END (R23). -/
def atEnd (s : State) : Bool := remaining s == 0

/-- One flag at its place in STATUS. -/
def flagBit (flag : Bool) (place : Nat) : Byte := (BitVec.ofBool flag).setWidth 8 <<< place

/-- STATUS as the host reads it (R27). -/
def statusByte (s : State) : Byte :=
  flagBit s.err 0 ||| flagBit (atEnd s) 1 ||| flagBit s.phValid 2 ||| flagBit s.shValid 3 |||
  flagBit s.thValid 4 ||| flagBit s.thSec 5 ||| flagBit s.cvtValid 6 ||| flagBit s.cvtW32 7

/-- Write PH_VALID, TH_VALID and TH_SEC, as a successful DECPH does (R122). -/
def markPrimary (s : State) : State := { s with phValid := true, thValid := false, thSec := false }

/-- Write SH_VALID, TH_VALID and TH_SEC, as a successful DECSH does (R123). -/
def markSecondary (s : State) : State := { s with shValid := true, thValid := false, thSec := false }

/-- Write the four header flags as a successful DECTH does: SH_VALID and TH_SEC are SHF (R124). -/
def markTelemetry (shf : Bool) (s : State) : State :=
  { s with phValid := true, shValid := shf, thValid := true, thSec := shf }

/-- Clear the four header flags, as START does (R100). -/
def clearHeaderFlags (s : State) : State :=
  { s with phValid := false, shValid := false, thValid := false, thSec := false }

end Sys2Proof.Machine
end

