-- ==== Sys2Proof/Machine/Memory.lean ====
section
/-! DEFINITION. The operations over IBUF and over the list of changed offsets (20_memory.md R60; 70_reset_and_hazards.md R192). -/

namespace Sys2Proof.Machine

/-- What an offset the buffer does not list reads as: no value, the offset is not readable (log 5). -/
def Memory.unlisted : Option Byte := none

/-- Offsets strictly rise, from `lo` on. -/
def Memory.risesFrom : Nat → Memory → Bool
  | _, [] => true
  | lo, (a, _) :: rest => decide (lo ≤ a) && Memory.risesFrom (a + 1) rest

/-- The canonical form: offsets strictly rising. No entry can equal `Memory.unlisted`, which is no byte. -/
def Memory.wf (m : Memory) : Bool := Memory.risesFrom 0 m

/-- The byte at an offset, if the buffer has one there. -/
def Memory.read : Memory → Nat → Option Byte
  | [], _ => Memory.unlisted
  | (x, b) :: rest, a => if x = a then some b else Memory.read rest a

/-- Write one byte, keeping the canonical form. Only the host writes (R61). At an offset the buffer does not list,
DESIGN CHOICE: the offset is added, whatever gap that leaves (R60 is silent; log 16). -/
def Memory.write : Memory → Nat → Byte → Memory
  | [], a, b => [(a, b)]
  | (x, c) :: rest, a, b =>
    if a < x then (a, b) :: (x, c) :: rest
    else if a = x then (a, b) :: rest
    else (x, c) :: Memory.write rest a b

/-- Consecutive bytes from offset `a` on. -/
def Memory.ofBytesAt : Nat → List Byte → Memory
  | _, [] => []
  | a, b :: rest => (a, b) :: Memory.ofBytesAt (a + 1) rest

/-- A buffer of these bytes, the first at offset 0 (R60). -/
def Memory.ofBytes (bytes : List Byte) : Memory := Memory.ofBytesAt 0 bytes

/-- `MemRead(a, n)` as the host does it on its own buffer: the byte, if any, at each offset (00_scope.md R8). -/
def Memory.readMany (m : Memory) : Nat → Nat → List (Option Byte)
  | _, 0 => []
  | a, n + 1 => Memory.read m a :: Memory.readMany m (a + 1) n

/-- Insert an offset in a strictly rising list. -/
def insertOffset (a : Nat) : List Nat → List Nat
  | [] => [a]
  | x :: rest => if a < x then a :: x :: rest else if a = x then x :: rest else x :: insertOffset a rest

/-- Offsets strictly rise, from `lo` on, and stay below `hi`. -/
def offsetsRise : Nat → Nat → List Nat → Bool
  | _, _, [] => true
  | lo, hi, a :: rest => decide (lo ≤ a) && decide (a < hi) && offsetsRise (a + 1) hi rest

/-- Of the offsets `as`, those below `len` at which the old and the new buffer differ are marked changed (log 7). -/
def markChanged (len : Nat) (old new : Memory) : List Nat → List Nat → List Nat
  | [], marked => marked
  | a :: rest, marked =>
    markChanged len old new rest
      (if a < len then (if Memory.read old a = Memory.read new a then marked else insertOffset a marked) else marked)

/-- The offsets a buffer lists. -/
def Memory.offsets : Memory → List Nat
  | [] => []
  | (a, _) :: rest => a :: Memory.offsets rest

end Sys2Proof.Machine
end

