-- ==== Sys2Proof/Machine/Operands.lean ====
section
/-! DEFINITION. Byte-order assembly, the two pure decode functions, the subfield views and the host byte image
(00_scope.md R8; 10_state.md R30; 41_header_decode.md R120, R121; 42_byte_order.md R150, R151). -/

namespace Sys2Proof.Machine

/-- PH_SIZE, the bytes of a primary header (R6). -/
def phSize : Nat := 6

/-- SH_SIZE, the bytes of a secondary header (R6). -/
def shSize : Nat := 6

/-- The 16-bit value of two bytes in wire order (R8). -/
def be16 (b0 b1 : Byte) : Word16 := b0.setWidth 16 <<< 8 ||| b1.setWidth 16

/-- The 32-bit value of four bytes in wire order (R8). -/
def be32 (b0 b1 b2 b3 : Byte) : Word32 :=
  b0.setWidth 32 <<< 24 ||| b1.setWidth 32 <<< 16 ||| b2.setWidth 32 <<< 8 ||| b3.setWidth 32

/-- Six bytes in wire order: a primary header (R88) or a secondary header (R89). -/
structure HeaderBytes where
  b0 : Byte
  b1 : Byte
  b2 : Byte
  b3 : Byte
  b4 : Byte
  b5 : Byte
deriving DecidableEq, Repr

/-- The three words of a primary header (R88). -/
structure PrimaryWords where
  w0 : Word16
  w1 : Word16
  w2 : Word16
deriving DecidableEq, Repr

/-- The two values of a secondary header (R89). -/
structure SecondaryValues where
  seconds : Word32
  subseconds : Word16
deriving DecidableEq, Repr

/-- `DecodePrimary` (R120). -/
def decodePrimary (p : HeaderBytes) : PrimaryWords :=
  { w0 := be16 p.b0 p.b1, w1 := be16 p.b2 p.b3, w2 := be16 p.b4 p.b5 }

/-- `DecodeSecondary` (R121). -/
def decodeSecondary (s : HeaderBytes) : SecondaryValues :=
  { seconds := be32 s.b0 s.b1 s.b2 s.b3, subseconds := be16 s.b4 s.b5 }

/-- application_id: `W0 & 0x07FF` (R30). -/
def applicationId (w0 : Word16) : BitVec 11 := (w0 &&& 0x07FF#16).setWidth 11

/-- has_secondary_header: `(W0 & 0x0800) != 0` (R30). -/
def hasSecondaryHeader (w0 : Word16) : Bool := w0 &&& 0x0800#16 != 0#16

/-- packet_type: `(W0 & 0x1000) >> 12` (R30). -/
def packetType (w0 : Word16) : BitVec 1 := ((w0 &&& 0x1000#16) >>> 12).setWidth 1

/-- ccsds_version: `(W0 & 0xE000) >> 13` (R30). -/
def ccsdsVersion (w0 : Word16) : BitVec 3 := ((w0 &&& 0xE000#16) >>> 13).setWidth 3

/-- sequence_count: `W1 & 0x3FFF` (R30). -/
def sequenceCount (w1 : Word16) : BitVec 14 := (w1 &&& 0x3FFF#16).setWidth 14

/-- segmentation_flags: `(W1 & 0xC000) >> 14` (R30). -/
def segmentationFlags (w1 : Word16) : BitVec 2 := ((w1 &&& 0xC000#16) >>> 14).setWidth 2

/-- Operand of CVT16: CVT_B0 and CVT_B1 (R83, R152). -/
def cvt16Value (s : State) : Word32 := (be16 s.cvtB0 s.cvtB1).setWidth 32

/-- Operand of CVT32: CVT_B0 to CVT_B3 (R83, R153). -/
def cvt32Value (s : State) : Word32 := be32 s.cvtB0 s.cvtB1 s.cvtB2 s.cvtB3

/-- Byte `k` of a 32-bit value, byte 0 the least significant. -/
def byteOf (v : Word32) (k : Nat) : Byte := (v >>> (8 * k)).setWidth 8

/-- Byte `k` of the host byte image of a conversion result (R151). -/
def imageByte (e : Endian) (w32 : Bool) (v : Word32) (k : Nat) : Byte :=
  match w32, e with
  | false, .big => if k < 2 then byteOf v (1 - k) else 0x00#8
  | false, .little => if k < 2 then byteOf v k else 0x00#8
  | true, .big => byteOf v (3 - k)
  | true, .little => byteOf v k

/-- CVT_HIMG`k` (R33, R151): unspecified while CVT_VALID = 0 (R43; log 4). -/
def hostImage (s : State) (k : Nat) : Byte :=
  if s.cvtValid then imageByte s.hostEndian s.cvtW32 s.cvtOut k else Config.unconvertedImage s.cvtOut k

end Sys2Proof.Machine
end

