-- ==== Sys2Proof/Machine/Ops.lean ====
section
/-! DEFINITION. The named operations the commands and the host port are written from: the error latch, the cursor read, the
fetch of header bytes, the latching of results (40_cursor.md R102; 60_exceptions.md R171, R177). -/

namespace Sys2Proof.Machine

/-- TAKING THE EXCEPTION: `raise InsufficientData(needed, available)` (R171). -/
def raiseInsufficientData (needed available : Nat) (s : State) : State :=
  { s with err := true, errKind := 1#8, errNeeded := needed, errAvail := available }

/-- LEAVING THE ERROR STATE: what START clears of the error record (R100, R177). -/
def clearError (s : State) : State := { s with err := false, errKind := 0#8, errNeeded := 0, errAvail := 0 }

/-- Advance POS (R102). -/
def advance (n : Nat) (s : State) : State := { s with pos := s.pos + n }

/-- Bind a view of `n` bytes: LEN, POS and the view (R100). A new pass has seen no byte change (R192 duty 4; log 7). -/
def bindView (n : Nat) (s : State) : State :=
  { s with len := n, pos := 0, viewBase := 0, viewLen := 0, changed := [] }

/-- Write VIEW_BASE and VIEW_LEN (R101). -/
def setView (base n : Nat) (s : State) : State := { s with viewBase := base, viewLen := n }

/-- Write PH_W0..PH_W2 (R29). -/
def latchPrimary (w : PrimaryWords) (s : State) : State := { s with phW0 := w.w0, phW1 := w.w1, phW2 := w.w2 }

/-- Write SH_SECONDS and SH_SUBSEC (R31). -/
def latchSecondary (v : SecondaryValues) (s : State) : State :=
  { s with shSeconds := v.seconds, shSubsec := v.subseconds }

/-- Write CVT_OUT, CVT_W32 and CVT_VALID (R152, R153). -/
def latchConversion (v : Word32) (w32 : Bool) (s : State) : State :=
  { s with cvtOut := v, cvtW32 := w32, cvtValid := true }

/-- Count one draw of free values (log 8). -/
def countDraw (s : State) : State := { s with draws := s.draws + 1 }

/-- What a cursor read answers: the offset of the first consumed byte, or the error latched. -/
inductive CursorResult where
  | got (a : Nat) (s : State)
  | short (s : State)
deriving DecidableEq, Repr

/-- `CursorRead(n)` (R102). The test never forms POS + n (R11). -/
def cursorRead (n : Nat) (s : State) : CursorResult :=
  if remaining s < n then .short (raiseInsufficientData n (remaining s) s) else .got s.pos (advance n s)

/-- The byte a command gets at an IBUF offset: the buffer's byte, a free value where the host has changed it during the
pass (93_implementation_defined.md I4; log 7), none where the buffer has no byte (I5; log 5). -/
def commandByte (s : State) (a : Nat) : Option Byte :=
  match Memory.read s.ibuf a with
  | none => none
  | some b => some (if s.changed.contains a then Config.changedByte s.draws a else b)

/-- `MemRead(a, 6)` (R8): the six bytes of a header, none where one is not readable. -/
def headerBytes (s : State) (a : Nat) : Option HeaderBytes :=
  match commandByte s a, commandByte s (a + 1), commandByte s (a + 2), commandByte s (a + 3), commandByte s (a + 4),
    commandByte s (a + 5) with
  | some b0, some b1, some b2, some b3, some b4, some b5 => some { b0, b1, b2, b3, b4, b5 }
  | _, _, _, _, _, _ => none

/-- Fetch the six bytes of a header; one draw is counted whether or not a byte was free (log 8). -/
def fetchHeader (a : Nat) (s : State) : Option (HeaderBytes × State) :=
  match headerBytes s a with
  | none => none
  | some p => some (p, countDraw s)

/-- The bytes of the view, `MemRead(VIEW_BASE, VIEW_LEN)`, as the host reads them from its own buffer (R101). -/
def viewBytes (s : State) : List (Option Byte) := Memory.readMany s.ibuf s.viewBase s.viewLen

/-- Write ARG: the low ADDR_W bits (R37). -/
def setArg (value : Nat) (s : State) : State := { s with arg := value % 2 ^ s.addrW }

/-- Write CVT_B0: the low 8 bits (R37). -/
def setCvtB0 (value : Nat) (s : State) : State := { s with cvtB0 := BitVec.ofNat 8 value }

/-- Write CVT_B1: the low 8 bits (R37). -/
def setCvtB1 (value : Nat) (s : State) : State := { s with cvtB1 := BitVec.ofNat 8 value }

/-- Write CVT_B2: the low 8 bits (R37). -/
def setCvtB2 (value : Nat) (s : State) : State := { s with cvtB2 := BitVec.ofNat 8 value }

/-- Write CVT_B3: the low 8 bits (R37). -/
def setCvtB3 (value : Nat) (s : State) : State := { s with cvtB3 := BitVec.ofNat 8 value }

/-- The host gives IBUF another content; of the offsets `as`, those whose byte changed below LEN are marked (log 7). -/
def setIbuf (new : Memory) (as : List Nat) (s : State) : State :=
  { s with ibuf := new, changed := markChanged s.len s.ibuf new as s.changed }

/-- Return a register's value to the host (log 12). -/
def returnRead (value : Nat) (s : State) : State := { s with lastRead := some value }

/-- The host's oldest pending action has been taken up (log 9). -/
def setPending (rest : List HostAction) (s : State) : State := { s with pending := rest }

end Sys2Proof.Machine
end

