-- ==== Sys2Proof/Machine/Convert.lean ====
section
/-! DEFINITION. The converter commands CVT16 and CVT32 (42_byte_order.md R152, R153). Both run under the error latch. -/

namespace Sys2Proof.Machine

/-- CVT16 (R152). -/
def execCvt16 (s : State) : Host.Outcome State Fault Refusal := .next (latchConversion (cvt16Value s) false s)

/-- CVT32 (R153). -/
def execCvt32 (s : State) : Host.Outcome State Fault Refusal := .next (latchConversion (cvt32Value s) true s)

end Sys2Proof.Machine
end

