-- ==== Sys2Proof/Machine/Cursor.lean ====
section
/-! DEFINITION. The cursor commands START and READ (40_cursor.md R100, R101). -/

namespace Sys2Proof.Machine

/-- START (R100). It runs under the error latch too and does not check IBUF's size. -/
def execStart (s : State) : Host.Outcome State Fault Refusal :=
  .next (clearHeaderFlags (clearError (bindView s.arg s)))

/-- READ (R101). It delimits bytes and fetches none (20_memory.md R62; log 6). -/
def execRead (s : State) : Host.Outcome State Fault Refusal :=
  if s.err then .next s
  else
    match cursorRead s.arg s with
    | .short t => .next t
    | .got a t => .next (setView a s.arg t)

end Sys2Proof.Machine
end

