-- ==== Sys2Proof/Machine/Header.lean ====
section
/-! DEFINITION. The header decode commands DECPH, DECSH and DECTH (41_header_decode.md R122 to R124). -/

namespace Sys2Proof.Machine

/-- DECPH (R122). -/
def execDecph (s : State) : Host.Outcome State Fault Refusal :=
  if s.err then .next s
  else
    match cursorRead phSize s with
    | .short t => .next t
    | .got a t =>
      match fetchHeader a t with
      | none => .fault (.ibufUnreadable .decph)
      | some (p, u) => .next (markPrimary (latchPrimary (decodePrimary p) u))

/-- DECSH (R123). It tests neither PH_SHF nor PH_VALID. -/
def execDecsh (s : State) : Host.Outcome State Fault Refusal :=
  if s.err then .next s
  else
    match cursorRead shSize s with
    | .short t => .next t
    | .got a t =>
      match fetchHeader a t with
      | none => .fault (.ibufUnreadable .decsh)
      | some (p, u) => .next (markSecondary (latchSecondary (decodeSecondary p) u))

/-- DECTH after its first read: `w` are the words just decoded, `s` the state with that read committed (R124). -/
def finishTelemetry (w : PrimaryWords) (s : State) : Host.Outcome State Fault Refusal :=
  if hasSecondaryHeader w.w0 then
    match cursorRead shSize s with
    | .short t => .next t
    | .got b t =>
      match fetchHeader b t with
      | none => .fault (.ibufUnreadable .decth)
      | some (q, u) => .next (markTelemetry true (latchSecondary (decodeSecondary q) (latchPrimary w u)))
  else .next (markTelemetry false (latchPrimary w s))

/-- DECTH (R124). The first read stays committed when the second fails; nothing is latched then (R172). -/
def execDecth (s : State) : Host.Outcome State Fault Refusal :=
  if s.err then .next s
  else
    match cursorRead phSize s with
    | .short t => .next t
    | .got a t =>
      match fetchHeader a t with
      | none => .fault (.ibufUnreadable .decth)
      | some (p, u) => finishTelemetry (decodePrimary p) u

end Sys2Proof.Machine
end

