-- ==== Sys2Proof/Machine/Dispatch.lean ====
section
/-! DEFINITION. One arm per command, each a direct call of its meaning (30_encoding.md R82). -/

namespace Sys2Proof.Machine

def exec (i : Instr) (s : State) : Host.Outcome State Fault Refusal :=
  match i with
  | .start => Sys2Proof.Machine.execStart s
  | .read => Sys2Proof.Machine.execRead s
  | .decph => Sys2Proof.Machine.execDecph s
  | .decsh => Sys2Proof.Machine.execDecsh s
  | .decth => Sys2Proof.Machine.execDecth s
  | .cvt16 => Sys2Proof.Machine.execCvt16 s
  | .cvt32 => Sys2Proof.Machine.execCvt32 s

end Sys2Proof.Machine
end

