-- ==== Sys2Proof/Machine/HostPort.lean ====
section
/-! DEFINITION. The host port: the register map (10_state.md R35 to R37), the issuing of a command (R25; 30_encoding.md R84),
and what each host action does. -/

namespace Sys2Proof.Machine

/-- The register map: index and register (R35). -/
def registerMap : List (Nat × Reg) :=
  [(0x00, .cmd), (0x01, .arg), (0x02, .status), (0x03, .errKind), (0x04, .errNeeded), (0x05, .errAvail),
   (0x06, .pos), (0x07, .len), (0x08, .rem), (0x09, .viewBase), (0x0A, .viewLen)] ++
  [(0x10, .phW0), (0x11, .phW1), (0x12, .phW2), (0x13, .phApid), (0x14, .phShf), (0x15, .phType), (0x16, .phVer),
   (0x17, .phSeq), (0x18, .phSegf), (0x19, .phPlen)] ++
  [(0x20, .shSeconds), (0x21, .shSubsec), (0x30, .cvtB0), (0x31, .cvtB1), (0x32, .cvtB2), (0x33, .cvtB3),
   (0x34, .cvtOut), (0x35, .cvtHimg0), (0x36, .cvtHimg1), (0x37, .cvtHimg2), (0x38, .cvtHimg3)]

/-- The register a list of rows gives an index. -/
def findReg : List (Nat × Reg) → Nat → Option Reg
  | [], _ => none
  | (x, r) :: rest, index => if x = index then some r else findReg rest index

/-- The register at an index (R35); none where the index is reserved (R36). -/
def regAt (index : Nat) : Option Reg := findReg registerMap index

/-- The width of a register in bits (R35). -/
def regWidth (addrW : Nat) : Reg → Nat
  | .cmd => 8
  | .arg => addrW
  | .status => 8
  | .errKind => 8
  | .errNeeded => addrW
  | .errAvail => addrW
  | .pos => addrW
  | .len => addrW
  | .rem => addrW
  | .viewBase => addrW
  | .viewLen => addrW
  | .phW0 => 16
  | .phW1 => 16
  | .phW2 => 16
  | .phApid => 11
  | .phShf => 1
  | .phType => 1
  | .phVer => 3
  | .phSeq => 14
  | .phSegf => 2
  | .phPlen => 16
  | .shSeconds => 32
  | .shSubsec => 16
  | .cvtB0 => 8
  | .cvtB1 => 8
  | .cvtB2 => 8
  | .cvtB3 => 8
  | .cvtOut => 32
  | .cvtHimg0 => 8
  | .cvtHimg1 => 8
  | .cvtHimg2 => 8
  | .cvtHimg3 => 8

/-- The value of a register, as a number: zero-extended to any width (R35; log 11). CMD reads 0 (R25). -/
def regValue (s : State) : Reg → Nat
  | .cmd => 0
  | .arg => s.arg
  | .status => (statusByte s).toNat
  | .errKind => s.errKind.toNat
  | .errNeeded => s.errNeeded
  | .errAvail => s.errAvail
  | .pos => s.pos
  | .len => s.len
  | .rem => remaining s
  | .viewBase => s.viewBase
  | .viewLen => s.viewLen
  | .phW0 => s.phW0.toNat
  | .phW1 => s.phW1.toNat
  | .phW2 => s.phW2.toNat
  | .phApid => (applicationId s.phW0).toNat
  | .phShf => (hasSecondaryHeader s.phW0).toNat
  | .phType => (packetType s.phW0).toNat
  | .phVer => (ccsdsVersion s.phW0).toNat
  | .phSeq => (sequenceCount s.phW1).toNat
  | .phSegf => (segmentationFlags s.phW1).toNat
  | .phPlen => s.phW2.toNat
  | .shSeconds => s.shSeconds.toNat
  | .shSubsec => s.shSubsec.toNat
  | .cvtB0 => s.cvtB0.toNat
  | .cvtB1 => s.cvtB1.toNat
  | .cvtB2 => s.cvtB2.toNat
  | .cvtB3 => s.cvtB3.toNat
  | .cvtOut => s.cvtOut.toNat
  | .cvtHimg0 => (hostImage s 0).toNat
  | .cvtHimg1 => (hostImage s 1).toNat
  | .cvtHimg2 => (hostImage s 2).toNat
  | .cvtHimg3 => (hostImage s 3).toNat

/-- What a read of an index returns: the register's value (R35), 0 for a reserved index (R36). -/
def indexValue (index : Nat) (s : State) : Nat :=
  match regAt index with
  | none => 0
  | some r => regValue s r

/-- A host write of `value` to CMD: one command with that opcode (R25). The reserved-opcode check comes first, and a
reserved opcode changes no state (R84, R175). A value that does not fit 8 bits is no command (R80; log 10). -/
def issueCommand (value : Nat) (s : State) : Host.Outcome State Fault Refusal :=
  if value < 256 then
    match decode (BitVec.ofNat 8 value) with
    | .command i => exec i s
    | .reserved _ => .next s
  else .refused (.overwideCommand value)

/-- A host write to a named register (R35, R37): CMD, ARG and CVT_Bk take it, a read-only register ignores it. -/
def writeReg (r : Reg) (value : Nat) (s : State) : Host.Outcome State Fault Refusal :=
  match r with
  | .cmd => issueCommand value s
  | .arg => .next (setArg value s)
  | .cvtB0 => .next (setCvtB0 value s)
  | .cvtB1 => .next (setCvtB1 value s)
  | .cvtB2 => .next (setCvtB2 value s)
  | .cvtB3 => .next (setCvtB3 value s)
  | .status | .errKind | .errNeeded | .errAvail | .pos | .len | .rem | .viewBase | .viewLen => .next s
  | .phW0 | .phW1 | .phW2 | .phApid | .phShf | .phType | .phVer | .phSeq | .phSegf | .phPlen => .next s
  | .shSeconds | .shSubsec | .cvtOut | .cvtHimg0 | .cvtHimg1 | .cvtHimg2 | .cvtHimg3 => .next s

/-- A host write to an index; a reserved index ignores it (R36). -/
def writeIndex (index value : Nat) (s : State) : Host.Outcome State Fault Refusal :=
  match regAt index with
  | none => .next s
  | some r => writeReg r value s

/-- What one host action does. DESIGN CHOICE: a store at an offset the bound buffer does not have, also with no buffer bound,
makes that offset readable; R60 says nothing of it (log 16). -/
def perform (a : HostAction) (s : State) : Host.Outcome State Fault Refusal :=
  match a with
  | .write index value => writeIndex index value s
  | .read index => .next (returnRead (indexValue index s) s)
  | .bind bytes =>
    .next (setIbuf (Memory.ofBytes bytes) (Memory.offsets s.ibuf ++ Memory.offsets (Memory.ofBytes bytes)) s)
  | .store offset byte => .next (setIbuf (Memory.write s.ibuf offset byte) [offset] s)
  | .reset => .next (State.resetOf s.addrW s.hostEndian s.ibuf s.draws s.pending s.lastRead)

/-- Take up the host's oldest pending action; with none pending nothing happens (R184; log 9). -/
def serveHost (s : State) : Host.Outcome State Fault Refusal :=
  match s.pending with
  | [] => .next s
  | a :: rest => perform a (setPending rest s)

/-- The host actions that issue the command whose table word is `w`, placed before those pending (log 9). -/
def commandFirst (nbits w : Nat) (pending : List HostAction) : List HostAction :=
  .write 0x00 (w % 2 ^ nbits) :: pending

end Sys2Proof.Machine
end

