-- ==== Sys2Proof/Machine/Step.lean ====
section
/-! DEFINITION. One step: one host action, performed to completion (70_reset_and_hazards.md R193, R195). -/

namespace Sys2Proof.Machine

/-- One step of the machine. -/
def step (s : State) : Host.Outcome State Fault Refusal := serveHost s

/-- `s` with the write to CMD that issues the command `w` as the host's next action (log 9). -/
def State.withFetchWord (s : State) (nbits w : Nat) : State := setPending (commandFirst nbits w s.pending) s

end Sys2Proof.Machine
end

