-- ==== Sys2Proof/Safety.lean ====
section
/-! DEFINITION. What counts as a safe run: the invariant of the block, the duties of the host (70_reset_and_hazards.md R192)
and a run that never stops. -/

namespace Sys2Proof.Machine

/-- What holds of the block between any two host actions. -/
structure State.Inv (s : State) : Prop where
  /-- ADDR_W is a legal width (R5) -/
  addrW_ge : 8 ≤ s.addrW
  /-- the cursor stays inside the view (R22) -/
  pos_le : s.pos ≤ s.len
  /-- LEN fits its width (R22) -/
  len_fits : s.len < 2 ^ s.addrW
  /-- ARG fits its width (R26) -/
  arg_fits : s.arg < 2 ^ s.addrW
  /-- ERR_NEEDED fits its width (R28) -/
  errNeeded_fits : s.errNeeded < 2 ^ s.addrW
  /-- the view lies among the bytes already consumed (R24, R101) -/
  view_consumed : s.viewBase + s.viewLen ≤ s.pos
  /-- with no error latched the record is clear (R28, R42, R100) -/
  clear_record : s.err = false → s.errKind = 0#8 ∧ s.errNeeded = 0 ∧ s.errAvail = 0
  /-- a latched error is InsufficientData and says how many bytes remain, too few for the read (R28, R170, R172) -/
  short_record : s.err = true → s.errKind = 1#8 ∧ s.errAvail = s.len - s.pos ∧ s.errAvail < s.errNeeded
  /-- TH_SEC is set only with TH_VALID (R27) -/
  thSec_th : s.thSec = true → s.thValid = true
  /-- a telemetry header has a primary part (R34) -/
  th_ph : s.thValid = true → s.phValid = true
  /-- its presence flag is the primary header's own flag (R34) -/
  th_shf : s.thValid = true → s.thSec = hasSecondaryHeader s.phW0
  /-- its secondary part is valid exactly when present (R31, R124) -/
  th_sh : s.thValid = true → s.shValid = s.thSec
  /-- CVT_W32 is written only with CVT_VALID (R27) -/
  cvt_w32 : s.cvtW32 = true → s.cvtValid = true
  /-- a 16-bit result is zero-extended (R33) -/
  cvt_narrow : s.cvtValid = true → s.cvtW32 = false → s.cvtOut.toNat < 2 ^ 16
  /-- IBUF keeps its canonical form -/
  ibuf_wf : Memory.wf s.ibuf = true
  /-- the changed offsets rise and lie below LEN (log 7) -/
  changed_wf : offsetsRise 0 s.len s.changed = true

/-- IBUF has a readable byte at every offset below `n` (R60, R192 duty 1). -/
def Readable (m : Memory) (n : Nat) : Prop := ∀ a, a < n → Memory.read m a ≠ none

/-- Two buffers agree at every offset below `n` (R192 duty 4). -/
def Agree (old new : Memory) (n : Nat) : Prop := ∀ a, a < n → Memory.read old a = Memory.read new a

/-- The host keeps its duties through these actions, given before them ARG, LEN, IBUF and whether the buffer of the current
pass has been kept (`kept`): a CMD value fits 8 bits (R80), the buffer has the bytes a START binds (R192 duty 1), and no
command of a pass (READ, DECPH, DECSH, DECTH) is issued once a byte of it below LEN has changed (R192 duty 4). -/
def KeepsDuties (addrW : Nat) : Prop → Nat → Nat → Memory → List HostAction → Prop
  | _, _, _, _, [] => True
  | kept, arg, len, ibuf, .write index value :: rest =>
    if index = 0x00 then
      value < 256 ∧
        (if value = 0x01 then Readable ibuf arg ∧ KeepsDuties addrW True arg arg ibuf rest
         else (value ∈ [0x02, 0x10, 0x11, 0x12] → kept) ∧ KeepsDuties addrW kept arg len ibuf rest)
    else if index = 0x01 then KeepsDuties addrW kept (value % 2 ^ addrW) len ibuf rest
    else KeepsDuties addrW kept arg len ibuf rest
  | kept, arg, len, ibuf, .read _ :: rest => KeepsDuties addrW kept arg len ibuf rest
  | kept, arg, len, ibuf, .bind bytes :: rest =>
    KeepsDuties addrW (kept ∧ Agree ibuf (Memory.ofBytes bytes) len) arg len (Memory.ofBytes bytes) rest
  | kept, arg, len, ibuf, .store offset byte :: rest =>
    KeepsDuties addrW (kept ∧ (offset < len → Memory.read ibuf offset = some byte)) arg len
      (Memory.write ibuf offset byte) rest
  | _, _, _, ibuf, .reset :: rest => KeepsDuties addrW True 0 0 ibuf rest

/-- The buffer of the current pass has the bytes the pass needs, and none of them has changed (R192 duties 1 and 4). -/
def State.BufferKept (s : State) : Prop := Readable s.ibuf s.len ∧ s.changed = []

/-- The host keeps its duties through every pending action. -/
def State.Dutiful (s : State) : Prop := KeepsDuties s.addrW s.BufferKept s.arg s.len s.ibuf s.pending

/-- A safe run: no number of steps ends in a fault or a refusal. -/
def State.RunsOn (s : State) : Prop := ∀ k, ∃ t, Host.Core.run Sys2Proof.core k s = .next t

end Sys2Proof.Machine
end

