-- ==== Sys2Proof/WellFormed.lean ====
section
/-! DEFINITION. Which commands and host actions are well-formed terms. -/

namespace Sys2Proof

/-- Every command is well-formed: it has no field a bad value could stand in (30_encoding.md R80). -/
def Instr.wf : Instr → Bool
  | .start => true
  | .read => true
  | .decph => true
  | .decsh => true
  | .decth => true
  | .cvt16 => true
  | .cvt32 => true

/-- A host action is well-formed when a value written to CMD (index 0x00) fits its 8 bits:
"A command is one host write of an 8-bit value to CMD" (R80). Any other action is. -/
def HostAction.wf : HostAction → Bool
  | .write index value => index != 0x00 || decide (value < 256)
  | .read _ => true
  | .bind _ => true
  | .store _ _ => true
  | .reset => true

end Sys2Proof
end

