-- ==== Sys2Proof/Certificates/Slice0/Obligations.lean ====
section
/-! DEFINITION. The statements for the provers. Each docstring names the rules of spec/ it formalises; REM is written
`s.len - s.pos`, which is exact where POS ≤ LEN. -/

open Sys2Proof Sys2Proof.Machine

/-! Encoding. -/

/-- R82: the seven opcodes, each decoding to its command and encoded from it. -/
def Obligations.OpcodeMapOfTheSevenCommands : Prop :=
  (decode 0x01#8 = .command .start ∧ encode .start = 0x01#8) ∧
  (decode 0x02#8 = .command .read ∧ encode .read = 0x02#8) ∧
  (decode 0x10#8 = .command .decph ∧ encode .decph = 0x10#8) ∧
  (decode 0x11#8 = .command .decsh ∧ encode .decsh = 0x11#8) ∧
  (decode 0x12#8 = .command .decth ∧ encode .decth = 0x12#8) ∧
  (decode 0x20#8 = .command .cvt16 ∧ encode .cvt16 = 0x20#8) ∧
  (decode 0x21#8 = .command .cvt32 ∧ encode .cvt32 = 0x21#8)

/-- R82, R85: decoding an encoded command gives it back, a byte that decodes to a command is that command's encoding, and a
table word is read as the opcode it is. -/
def Obligations.DecodeAndEncodeAgree : Prop :=
  (∀ i : Instr, i.wf = true → decode (encode i) = .command i) ∧
  (∀ (b : Byte) (i : Instr), decode b = .command i → encode i = b) ∧
  (∀ (b : Byte) (i : Instr), decodeTableWord 8 b.toNat = some i ↔ decode b = .command i)

/-- R84: 249 opcodes are reserved, and a command with one changes no state. -/
def Obligations.ReservedOpcodesChangeNoState : Prop :=
  ((List.range 256).filter fun v => decide (decode (BitVec.ofNat 8 v) = .reserved (BitVec.ofNat 8 v))).length = 249 ∧
  ∀ (s : State) (v : Nat) (rest : List HostAction),
    v = 0x00 ∨ (0x03 ≤ v ∧ v ≤ 0x0F) ∨ (0x13 ≤ v ∧ v ≤ 0x1F) ∨ (0x22 ≤ v ∧ v ≤ 0xFF) →
    s.pending = .write 0x00 v :: rest →
    step s = .next { s with pending := rest }

/-! The step. -/

/-- R25, R193: a host write of an opcode to CMD is one step and runs the decoded command; `withFetchWord` places such a write;
with no host action pending a step changes nothing (log 9, the model's choice). -/
def Obligations.StepRunsTheDecodedCommand : Prop :=
  (∀ (s : State) (v : Nat) (i : Instr) (rest : List HostAction),
    s.pending = .write 0x00 v :: rest → v < 256 → decode (BitVec.ofNat 8 v) = .command i →
    step s = exec i { s with pending := rest }) ∧
  (∀ (s : State) (i : Instr), step (s.withFetchWord 8 (encode i).toNat) = exec i s) ∧
  (∀ s : State, s.pending = [] → step s = .next s)

/-! The cursor commands. -/

/-- R100: START, its whole effect; it runs in every state. -/
def Obligations.StartBindsViewAndClearsResults : Prop :=
  decode 0x01#8 = .command .start ∧
  ∀ s : State,
    exec .start s = .next { s with
      len := s.arg, pos := 0, err := false, errKind := 0#8, errNeeded := 0, errAvail := 0, viewBase := 0, viewLen := 0,
      phValid := false, shValid := false, thValid := false, thSec := false, changed := [] } ∧
    ∀ t, exec .start s = .next t → (atEnd t = true ↔ s.arg = 0)

/-- R101: READ, its whole effect in each of its three cases. -/
def Obligations.ReadConsumesOrRaises : Prop :=
  decode 0x02#8 = .command .read ∧
  ∀ s : State,
    (s.err = true → exec .read s = .next s) ∧
    (s.err = false → s.len - s.pos < s.arg → exec .read s = .next { s with
      err := true, errKind := 1#8, errNeeded := s.arg, errAvail := s.len - s.pos }) ∧
    (s.err = false → s.arg ≤ s.len - s.pos → exec .read s = .next { s with
      viewBase := s.pos, viewLen := s.arg, pos := s.pos + s.arg })

/-- R24, R101: after a successful READ the view's bytes, as the host reads them from IBUF, are the next ARG bytes. -/
def Obligations.ReadViewIsTheNextBytes : Prop :=
  ∀ s : State, s.err = false → s.arg ≤ s.len - s.pos →
    ∃ t, exec .read s = .next t ∧ (viewBytes t).length = s.arg ∧
      ∀ k, k < s.arg → (viewBytes t)[k]? = some (Memory.read s.ibuf (s.pos + k))

/-- R102: the cursor read is all-or-nothing, its bound is the source's, and it keeps POS ≤ LEN. -/
def Obligations.CursorReadIsAllOrNothing : Prop :=
  ∀ (n : Nat) (s : State),
    (s.len - s.pos < n → cursorRead n s = .short { s with
      err := true, errKind := 1#8, errNeeded := n, errAvail := s.len - s.pos }) ∧
    (n ≤ s.len - s.pos → cursorRead n s = .got s.pos { s with pos := s.pos + n }) ∧
    (s.pos ≤ s.len → (s.len - s.pos < n ↔ s.len < s.pos + n)) ∧
    (s.pos ≤ s.len → n ≤ s.len - s.pos → s.pos + n ≤ s.len)

/-! The header commands. -/

/-- R122: DECPH, its whole effect when the six bytes it fetches are `p0 .. p5` (`commandByte`: `HeaderByteIsTheBufferByte`).
The model's own field `draws` counts the fetch (log 8). -/
def Obligations.DecphLatchesThePrimaryHeader : Prop :=
  decode 0x10#8 = .command .decph ∧
  ∀ (s : State) (p0 p1 p2 p3 p4 p5 : Byte),
    (s.err = true → exec .decph s = .next s) ∧
    (s.err = false → s.len - s.pos < 6 → exec .decph s = .next { s with
      err := true, errKind := 1#8, errNeeded := 6, errAvail := s.len - s.pos }) ∧
    (s.err = false → 6 ≤ s.len - s.pos →
      commandByte s s.pos = some p0 → commandByte s (s.pos + 1) = some p1 → commandByte s (s.pos + 2) = some p2 →
      commandByte s (s.pos + 3) = some p3 → commandByte s (s.pos + 4) = some p4 → commandByte s (s.pos + 5) = some p5 →
      exec .decph s = .next { s with
        pos := s.pos + 6, phW0 := p0 ++ p1, phW1 := p2 ++ p3, phW2 := p4 ++ p5,
        phValid := true, thValid := false, thSec := false, draws := s.draws + 1 })

/-- R123: DECSH, its whole effect when the six bytes it fetches are `p0 .. p5`; PH_SHF and PH_VALID play no part. The model's own
field `draws` counts the fetch (log 8). -/
def Obligations.DecshLatchesTheSecondaryHeader : Prop :=
  decode 0x11#8 = .command .decsh ∧
  ∀ (s : State) (p0 p1 p2 p3 p4 p5 : Byte),
    (s.err = true → exec .decsh s = .next s) ∧
    (s.err = false → s.len - s.pos < 6 → exec .decsh s = .next { s with
      err := true, errKind := 1#8, errNeeded := 6, errAvail := s.len - s.pos }) ∧
    (s.err = false → 6 ≤ s.len - s.pos →
      commandByte s s.pos = some p0 → commandByte s (s.pos + 1) = some p1 → commandByte s (s.pos + 2) = some p2 →
      commandByte s (s.pos + 3) = some p3 → commandByte s (s.pos + 4) = some p4 → commandByte s (s.pos + 5) = some p5 →
      exec .decsh s = .next { s with
        pos := s.pos + 6, shSeconds := p0 ++ p1 ++ p2 ++ p3, shSubsec := p4 ++ p5,
        shValid := true, thValid := false, thSec := false, draws := s.draws + 1 })

/-- R124: DECTH, its whole effect in each of its cases. `p0 .. p5` are the bytes of its first read, and the flag is bit 3 of
`p0` (R88); `q0 .. q5` are the bytes of its second read. The model's own field `draws` counts each fetch (log 8). -/
def Obligations.DecthLatchesTheTelemetryHeader : Prop :=
  decode 0x12#8 = .command .decth ∧
  ∀ (s : State) (p0 p1 p2 p3 p4 p5 q0 q1 q2 q3 q4 q5 : Byte),
    (s.err = true → exec .decth s = .next s) ∧
    (s.err = false → s.len - s.pos < 6 → exec .decth s = .next { s with
      err := true, errKind := 1#8, errNeeded := 6, errAvail := s.len - s.pos }) ∧
    (s.err = false → 6 ≤ s.len - s.pos →
      commandByte s s.pos = some p0 → commandByte s (s.pos + 1) = some p1 → commandByte s (s.pos + 2) = some p2 →
      commandByte s (s.pos + 3) = some p3 → commandByte s (s.pos + 4) = some p4 → commandByte s (s.pos + 5) = some p5 →
      (p0.getLsbD 3 = false → exec .decth s = .next { s with
        pos := s.pos + 6, phW0 := p0 ++ p1, phW1 := p2 ++ p3, phW2 := p4 ++ p5,
        phValid := true, shValid := false, thValid := true, thSec := false, draws := s.draws + 1 }) ∧
      (p0.getLsbD 3 = true → s.len - s.pos < 12 → exec .decth s = .next { s with
        pos := s.pos + 6, err := true, errKind := 1#8, errNeeded := 6, errAvail := s.len - (s.pos + 6),
        draws := s.draws + 1 }) ∧
      (p0.getLsbD 3 = true → 12 ≤ s.len - s.pos →
        commandByte { s with draws := s.draws + 1 } (s.pos + 6) = some q0 →
        commandByte { s with draws := s.draws + 1 } (s.pos + 7) = some q1 →
        commandByte { s with draws := s.draws + 1 } (s.pos + 8) = some q2 →
        commandByte { s with draws := s.draws + 1 } (s.pos + 9) = some q3 →
        commandByte { s with draws := s.draws + 1 } (s.pos + 10) = some q4 →
        commandByte { s with draws := s.draws + 1 } (s.pos + 11) = some q5 →
        exec .decth s = .next { s with
          pos := s.pos + 12, phW0 := p0 ++ p1, phW1 := p2 ++ p3, phW2 := p4 ++ p5,
          shSeconds := q0 ++ q1 ++ q2 ++ q3, shSubsec := q4 ++ q5,
          phValid := true, shValid := true, thValid := true, thSec := true, draws := s.draws + 2 }))

/-- 93_implementation_defined.md I4 and I5, logs 5 and 7 (the model's choice): the byte a header command gets is IBUF's byte
where the host has kept it, a free value where the host has changed it during the pass, none where IBUF has no byte. -/
def Obligations.HeaderByteIsTheBufferByte : Prop :=
  ∀ (s : State) (a : Nat),
    (∀ b, Memory.read s.ibuf a = some b →
      (a ∉ s.changed → commandByte s a = some b) ∧
      (a ∈ s.changed → commandByte s a = some (Config.changedByte s.draws a))) ∧
    (Memory.read s.ibuf a = none → commandByte s a = none)

/-- 93_implementation_defined.md I5, log 5 (the model's choice of a fault): a header command whose bound check passes and one of
whose bytes the buffer does not have stops with a fault that names it. -/
def Obligations.HeaderCommandsFaultOnAMissingByte : Prop :=
  ∀ s : State, s.err = false → 6 ≤ s.len - s.pos →
    ((∃ k, k < 6 ∧ Memory.read s.ibuf (s.pos + k) = none) →
      exec .decph s = .fault (.ibufUnreadable .decph) ∧ exec .decsh s = .fault (.ibufUnreadable .decsh) ∧
        exec .decth s = .fault (.ibufUnreadable .decth)) ∧
    ((∀ k, k < 6 → Memory.read s.ibuf (s.pos + k) ≠ none) → 12 ≤ s.len - s.pos →
      (∃ p0, commandByte s s.pos = some p0 ∧ p0.getLsbD 3 = true) →
      (∃ k, 6 ≤ k ∧ k < 12 ∧ Memory.read s.ibuf (s.pos + k) = none) →
      exec .decth s = .fault (.ibufUnreadable .decth))

/-- R63: the fields the header commands latch are the big-endian values of their bytes, as numbers. -/
def Obligations.HeaderFieldsAreBigEndian : Prop :=
  ∀ (s : State) (p : Fin 6 → Byte), s.err = false → 6 ≤ s.len - s.pos → s.changed = [] →
    (∀ k : Fin 6, Memory.read s.ibuf (s.pos + k.val) = some (p k)) →
    (∃ t, exec .decph s = .next t ∧ t.phW0.toNat = (p 0).toNat * 256 + (p 1).toNat ∧
      t.phW1.toNat = (p 2).toNat * 256 + (p 3).toNat ∧ t.phW2.toNat = (p 4).toNat * 256 + (p 5).toNat) ∧
    (∃ t, exec .decsh s = .next t ∧
      t.shSeconds.toNat = (p 0).toNat * 256 ^ 3 + (p 1).toNat * 256 ^ 2 + (p 2).toNat * 256 + (p 3).toNat ∧
      t.shSubsec.toNat = (p 4).toNat * 256 + (p 5).toNat)

/-- R30, R88, R89, R124: for every value of every header field, when IBUF holds the header's wire bytes at POS, DECTH completes
and the host then reads the field values back; without a secondary header none is shown as present. -/
def Obligations.TelemetryHeaderRoundTrip : Prop :=
  ∀ (s : State) (ver : BitVec 3) (typ : BitVec 1) (apid : BitVec 11) (segf : BitVec 2) (seq : BitVec 14) (plen : BitVec 16)
    (sec : BitVec 32) (sub : BitVec 16) (shf : Bool) (w0 w1 : BitVec 16),
    s.err = false → s.changed = [] → (if shf then 12 else 6) ≤ s.len - s.pos →
    w0 = ver ++ typ ++ BitVec.ofBool shf ++ apid → w1 = segf ++ seq →
    (∀ k (hk : k < 6), Memory.read s.ibuf (s.pos + k) =
      some ([w0.extractLsb' 8 8, w0.extractLsb' 0 8, w1.extractLsb' 8 8, w1.extractLsb' 0 8, plen.extractLsb' 8 8,
        plen.extractLsb' 0 8][k])) →
    (shf = true → ∀ k (hk : k < 6), Memory.read s.ibuf (s.pos + 6 + k) =
      some ([sec.extractLsb' 24 8, sec.extractLsb' 16 8, sec.extractLsb' 8 8, sec.extractLsb' 0 8, sub.extractLsb' 8 8,
        sub.extractLsb' 0 8][k])) →
    ∃ t, exec .decth s = .next t ∧
      indexValue 0x13 t = apid.toNat ∧ indexValue 0x14 t = shf.toNat ∧ indexValue 0x15 t = typ.toNat ∧
      indexValue 0x16 t = ver.toNat ∧ indexValue 0x17 t = seq.toNat ∧ indexValue 0x18 t = segf.toNat ∧
      indexValue 0x19 t = plen.toNat ∧ t.thValid = true ∧ t.thSec = shf ∧ t.shValid = shf ∧
      t.pos = s.pos + (if shf then 12 else 6) ∧
      (shf = true → indexValue 0x20 t = sec.toNat ∧ indexValue 0x21 t = sub.toNat) ∧
      (shf = false → t.shSeconds = s.shSeconds ∧ t.shSubsec = s.shSubsec)

/-! The converter. -/

/-- R152: CVT16, its whole effect; it runs in every state, under the error latch too. -/
def Obligations.Cvt16ConvertsTwoBytes : Prop :=
  decode 0x20#8 = .command .cvt16 ∧
  ∀ s : State, exec .cvt16 s = .next { s with
    cvtOut := (s.cvtB0 ++ s.cvtB1).setWidth 32, cvtW32 := false, cvtValid := true }

/-- R153: CVT32, its whole effect; it runs in every state, under the error latch too. -/
def Obligations.Cvt32ConvertsFourBytes : Prop :=
  decode 0x21#8 = .command .cvt32 ∧
  ∀ s : State, exec .cvt32 s = .next { s with
    cvtOut := s.cvtB0 ++ s.cvtB1 ++ s.cvtB2 ++ s.cvtB3, cvtW32 := true, cvtValid := true }

/-- R150: the numeric result of a conversion, the same for every host byte order. -/
def Obligations.ConversionIsPositionalOnEveryHost : Prop :=
  ∀ (s : State) (e : Endian),
    (∃ t, exec .cvt16 { s with hostEndian := e } = .next t ∧
      t.cvtOut.toNat = s.cvtB0.toNat * 2 ^ 8 + s.cvtB1.toNat) ∧
    (∃ t, exec .cvt32 { s with hostEndian := e } = .next t ∧
      t.cvtOut.toNat = s.cvtB0.toNat * 2 ^ 24 + s.cvtB1.toNat * 2 ^ 16 + s.cvtB2.toNat * 2 ^ 8 + s.cvtB3.toNat)

/-- R151: the host byte image by width and host byte order, as the host reads it at indexes 0x35 to 0x38. -/
def Obligations.HostImageFollowsWidthAndByteOrder : Prop :=
  ∀ s : State, s.cvtValid = true →
    (s.cvtW32 = false → s.hostEndian = .big →
      indexValue 0x35 s = (s.cvtOut.extractLsb' 8 8).toNat ∧ indexValue 0x36 s = (s.cvtOut.extractLsb' 0 8).toNat ∧
        indexValue 0x37 s = 0 ∧ indexValue 0x38 s = 0) ∧
    (s.cvtW32 = false → s.hostEndian = .little →
      indexValue 0x35 s = (s.cvtOut.extractLsb' 0 8).toNat ∧ indexValue 0x36 s = (s.cvtOut.extractLsb' 8 8).toNat ∧
        indexValue 0x37 s = 0 ∧ indexValue 0x38 s = 0) ∧
    (s.cvtW32 = true → s.hostEndian = .big →
      indexValue 0x35 s = (s.cvtOut.extractLsb' 24 8).toNat ∧ indexValue 0x36 s = (s.cvtOut.extractLsb' 16 8).toNat ∧
        indexValue 0x37 s = (s.cvtOut.extractLsb' 8 8).toNat ∧ indexValue 0x38 s = (s.cvtOut.extractLsb' 0 8).toNat) ∧
    (s.cvtW32 = true → s.hostEndian = .little →
      indexValue 0x35 s = (s.cvtOut.extractLsb' 0 8).toNat ∧ indexValue 0x36 s = (s.cvtOut.extractLsb' 8 8).toNat ∧
        indexValue 0x37 s = (s.cvtOut.extractLsb' 16 8).toNat ∧ indexValue 0x38 s = (s.cvtOut.extractLsb' 24 8).toNat)

/-- R151, R152, R153: after a conversion the image on a big-endian host is the wire bytes, on a little-endian host the wire bytes
reversed. -/
def Obligations.ImageIsTheWireBytesOrTheirSwap : Prop :=
  ∀ s : State,
    (∃ t, exec .cvt16 s = .next t ∧ hostImage t 2 = 0x00#8 ∧ hostImage t 3 = 0x00#8 ∧
      (s.hostEndian = .big → hostImage t 0 = s.cvtB0 ∧ hostImage t 1 = s.cvtB1) ∧
      (s.hostEndian = .little → hostImage t 0 = s.cvtB1 ∧ hostImage t 1 = s.cvtB0)) ∧
    (∃ t, exec .cvt32 s = .next t ∧
      (s.hostEndian = .big → hostImage t 0 = s.cvtB0 ∧ hostImage t 1 = s.cvtB1 ∧ hostImage t 2 = s.cvtB2 ∧
        hostImage t 3 = s.cvtB3) ∧
      (s.hostEndian = .little → hostImage t 0 = s.cvtB3 ∧ hostImage t 1 = s.cvtB2 ∧ hostImage t 2 = s.cvtB1 ∧
        hostImage t 3 = s.cvtB0))

/-- R156: the bytes of a value convert back to it, and on a big-endian host the image is those bytes. -/
def Obligations.ConversionHasAnInverse : Prop :=
  (∀ (s : State) (v : BitVec 16), s.cvtB0 = v.extractLsb' 8 8 → s.cvtB1 = v.extractLsb' 0 8 →
    ∃ t, exec .cvt16 s = .next t ∧ t.cvtOut = v.setWidth 32 ∧
      (s.hostEndian = .big → hostImage t 0 = v.extractLsb' 8 8 ∧ hostImage t 1 = v.extractLsb' 0 8)) ∧
  (∀ (s : State) (v : BitVec 32), s.cvtB0 = v.extractLsb' 24 8 → s.cvtB1 = v.extractLsb' 16 8 →
    s.cvtB2 = v.extractLsb' 8 8 → s.cvtB3 = v.extractLsb' 0 8 →
    ∃ t, exec .cvt32 s = .next t ∧ t.cvtOut = v ∧
      (s.hostEndian = .big → hostImage t 0 = v.extractLsb' 24 8 ∧ hostImage t 1 = v.extractLsb' 16 8 ∧
        hostImage t 2 = v.extractLsb' 8 8 ∧ hostImage t 3 = v.extractLsb' 0 8))

/-! The error latch. -/

/-- R170: which command raises InsufficientData when, and with which record; a command never raises otherwise. -/
def Obligations.InsufficientDataCauses : Prop :=
  ∀ (i : Instr) (s t : State), exec i s = .next t → s.err = false →
    (t.err = true ↔
      (i = .read ∧ s.len - s.pos < s.arg) ∨
      ((i = .decph ∨ i = .decsh ∨ i = .decth) ∧ s.len - s.pos < 6) ∨
      (i = .decth ∧ 6 ≤ s.len - s.pos ∧ s.len - s.pos < 12 ∧ ∃ p0, commandByte s s.pos = some p0 ∧ p0.getLsbD 3 = true)) ∧
    (t.err = true → t.errKind = 1#8 ∧ t.errNeeded = (if i = .read then s.arg else 6) ∧
      t.errAvail = (if i = .decth ∧ 6 ≤ s.len - s.pos then s.len - s.pos - 6 else s.len - s.pos))

/-- R172: a failing command changes the error record alone, and POS by 6 for DECTH failing at its second read; POS is then the
offset of the first byte the failing read would have consumed, still inside the view. The model's own field `draws` has counted
that first read (log 8). -/
def Obligations.FailureChangesOnlyTheErrorRecord : Prop :=
  ∀ (i : Instr) (s t : State), exec i s = .next t → s.err = false → t.err = true →
    (t = { s with err := true, errKind := t.errKind, errNeeded := t.errNeeded, errAvail := t.errAvail } ∨
      (i = .decth ∧ 6 ≤ s.len - s.pos ∧ (∃ p0, commandByte s s.pos = some p0 ∧ p0.getLsbD 3 = true) ∧
        t = { s with
          err := true, errKind := t.errKind, errNeeded := t.errNeeded, errAvail := t.errAvail, pos := s.pos + 6,
          draws := s.draws + 1 })) ∧
    t.errAvail = s.len - t.pos ∧ t.errAvail < t.errNeeded ∧ (s.pos ≤ s.len → t.pos ≤ t.len)

/-- R173: the latch is sticky. -/
def Obligations.ErrorLatchIsSticky : Prop :=
  ∀ s : State, s.err = true →
    exec .read s = .next s ∧ exec .decph s = .next s ∧ exec .decsh s = .next s ∧ exec .decth s = .next s ∧
    (∃ t, exec .start s = .next t ∧ t.err = false ∧ t.errKind = 0#8 ∧ t.errNeeded = 0 ∧ t.errAvail = 0) ∧
    (∃ t, exec .cvt16 s = .next t ∧ t.cvtOut = (s.cvtB0 ++ s.cvtB1).setWidth 32) ∧
    (∃ t, exec .cvt32 s = .next t ∧ t.cvtOut = s.cvtB0 ++ s.cvtB1 ++ s.cvtB2 ++ s.cvtB3) ∧
    (∀ (v : Nat) (opc : Byte) (rest : List HostAction), v < 256 → decode (BitVec.ofNat 8 v) = .reserved opc →
      s.pending = .write 0x00 v :: rest → step s = .next { s with pending := rest })

/-- R177, R190: the error state is left by START or a reset alone. -/
def Obligations.ErrorStateLeftOnlyByStartOrReset : Prop :=
  ∀ s t : State, step s = .next t → s.err = true → t.err = false →
    ∃ rest, s.pending = .write 0x00 0x01 :: rest ∨ s.pending = .reset :: rest

/-- R27, R190: CVT_VALID is cleared by a reset alone. -/
def Obligations.CvtValidClearedOnlyByReset : Prop :=
  ∀ s t : State, step s = .next t → s.cvtValid = true → t.cvtValid = false → ∃ rest, s.pending = .reset :: rest

/-! What commands leave alone. -/

/-- R61: no command stores to memory. -/
def Obligations.CommandsNeverWriteIbuf : Prop :=
  ∀ (i : Instr) (s t : State), exec i s = .next t → ∀ a, Memory.read t.ibuf a = Memory.read s.ibuf a

/-- R22, R24, R26, R28, R29, R31, R32, R33: which command may write which register; every other register keeps its value. The
model's own fields changed, pending and lastRead are named too (logs 7, 9, 12). -/
def Obligations.CommandsWriteOnlyTheirRegisters : Prop :=
  ∀ (i : Instr) (s t : State), exec i s = .next t →
    (t.arg = s.arg ∧ t.cvtB0 = s.cvtB0 ∧ t.cvtB1 = s.cvtB1 ∧ t.cvtB2 = s.cvtB2 ∧ t.cvtB3 = s.cvtB3 ∧
      t.addrW = s.addrW ∧ t.hostEndian = s.hostEndian ∧ t.ibuf = s.ibuf ∧ t.pending = s.pending ∧
      t.lastRead = s.lastRead) ∧
    (i ≠ .start → t.len = s.len ∧ t.changed = s.changed) ∧
    (i ≠ .start → i ≠ .read → t.viewBase = s.viewBase ∧ t.viewLen = s.viewLen) ∧
    (i ≠ .decph → i ≠ .decth → t.phW0 = s.phW0 ∧ t.phW1 = s.phW1 ∧ t.phW2 = s.phW2 ∧
      (i ≠ .start → t.phValid = s.phValid)) ∧
    (i ≠ .decsh → i ≠ .decth → t.shSeconds = s.shSeconds ∧ t.shSubsec = s.shSubsec ∧
      (i ≠ .start → t.shValid = s.shValid)) ∧
    (i = .read → t.thValid = s.thValid ∧ t.thSec = s.thSec) ∧
    (i ≠ .cvt16 → i ≠ .cvt32 → t.cvtOut = s.cvtOut ∧ t.cvtValid = s.cvtValid ∧ t.cvtW32 = s.cvtW32) ∧
    (i = .cvt16 ∨ i = .cvt32 → t = { s with cvtOut := t.cvtOut, cvtValid := true, cvtW32 := t.cvtW32 })

/-- R103: the bytes a command consumed, as the change of POS; START, which rewinds POS, is no consuming command. -/
def Obligations.ConsumedByteCount : Prop :=
  ∀ (i : Instr) (s t : State), exec i s = .next t → i ≠ .start →
    (i = .read → t.err = false → t.pos - s.pos = s.arg ∧ s.pos ≤ t.pos) ∧
    (i = .decph ∨ i = .decsh → t.err = false → t.pos - s.pos = 6) ∧
    (i = .decth → t.err = false → t.pos - s.pos = (if t.thSec then 12 else 6)) ∧
    (s.err = false → t.err = true → t.pos = s.pos + (if i = .decth ∧ 6 ≤ s.len - s.pos then 6 else 0)) ∧
    (s.err = true ∨ i = .cvt16 ∨ i = .cvt32 → t.pos = s.pos)

/-- R21: POS decreases at START or a reset alone. -/
def Obligations.PosDecreasesOnlyAtStartOrReset : Prop :=
  ∀ s t : State, step s = .next t → t.pos < s.pos →
    ∃ rest, s.pending = .write 0x00 0x01 :: rest ∨ s.pending = .reset :: rest

/-- R62: a command learns nothing of IBUF outside offsets POS .. LEN - 1: with any other buffer that agrees there it has the
same outcome. -/
def Obligations.BytesOutsideTheViewAreInvisible : Prop :=
  ∀ (i : Instr) (s : State) (m : Memory),
    (∀ a, s.pos ≤ a → a < s.len → Memory.read m a = Memory.read s.ibuf a) →
    (∀ t, exec i s = .next t → exec i { s with ibuf := m } = .next { t with ibuf := m }) ∧
    (∀ f, exec i s = .fault f → exec i { s with ibuf := m } = .fault f)

/-! The host port. -/

/-- R23: REM and AT_END. -/
def Obligations.RemAndAtEndAreDerived : Prop :=
  ∀ s : State, indexValue 0x08 s = s.len - s.pos ∧
    ((statusByte s).getLsbD 1 = true ↔ s.len - s.pos = 0)

/-- R30: every subfield is a masked part of its word, and the fields together are the word. -/
def Obligations.SubfieldsAreMaskedBits : Prop :=
  ∀ s : State,
    indexValue 0x13 s = (s.phW0 &&& 0x07FF#16).toNat ∧ indexValue 0x13 s = (s.phW0.extractLsb' 0 11).toNat ∧
    indexValue 0x14 s = (if s.phW0 &&& 0x0800#16 ≠ 0#16 then 1 else 0) ∧ indexValue 0x14 s = (s.phW0.getLsbD 11).toNat ∧
    indexValue 0x15 s = ((s.phW0 &&& 0x1000#16) >>> 12).toNat ∧ indexValue 0x15 s = (s.phW0.extractLsb' 12 1).toNat ∧
    indexValue 0x16 s = ((s.phW0 &&& 0xE000#16) >>> 13).toNat ∧ indexValue 0x16 s = (s.phW0.extractLsb' 13 3).toNat ∧
    indexValue 0x17 s = (s.phW1 &&& 0x3FFF#16).toNat ∧ indexValue 0x17 s = (s.phW1.extractLsb' 0 14).toNat ∧
    indexValue 0x18 s = ((s.phW1 &&& 0xC000#16) >>> 14).toNat ∧ indexValue 0x18 s = (s.phW1.extractLsb' 14 2).toNat ∧
    indexValue 0x19 s = s.phW2.toNat ∧
    s.phW0 = ccsdsVersion s.phW0 ++ packetType s.phW0 ++ BitVec.ofBool (hasSecondaryHeader s.phW0) ++ applicationId s.phW0 ∧
    s.phW1 = segmentationFlags s.phW1 ++ sequenceCount s.phW1

/-- R35, with R23, R25, R27 and R30: what a host read of each listed index returns, which fits the register's width; a read
changes nothing of the block. `lastRead` is where the model shows the value (log 12). -/
def Obligations.RegisterReadsFollowTheMap : Prop :=
  ∀ (s : State) (rest : List HostAction) (index width value : Nat), s.Inv →
    (index, width, value) ∈ [
      (0x00, 8, 0), (0x01, s.addrW, s.arg),
      (0x02, 8, s.err.toNat + 2 * (decide (s.len - s.pos = 0)).toNat + 4 * s.phValid.toNat + 8 * s.shValid.toNat +
        16 * s.thValid.toNat + 32 * s.thSec.toNat + 64 * s.cvtValid.toNat + 128 * s.cvtW32.toNat),
      (0x03, 8, s.errKind.toNat), (0x04, s.addrW, s.errNeeded), (0x05, s.addrW, s.errAvail), (0x06, s.addrW, s.pos),
      (0x07, s.addrW, s.len), (0x08, s.addrW, s.len - s.pos), (0x09, s.addrW, s.viewBase), (0x0A, s.addrW, s.viewLen)] ++ [
      (0x10, 16, s.phW0.toNat), (0x11, 16, s.phW1.toNat), (0x12, 16, s.phW2.toNat), (0x13, 11, s.phW0.toNat % 2048),
      (0x14, 1, s.phW0.toNat / 2048 % 2), (0x15, 1, s.phW0.toNat / 4096 % 2), (0x16, 3, s.phW0.toNat / 8192),
      (0x17, 14, s.phW1.toNat % 16384), (0x18, 2, s.phW1.toNat / 16384), (0x19, 16, s.phW2.toNat)] ++ [
      (0x20, 32, s.shSeconds.toNat), (0x21, 16, s.shSubsec.toNat), (0x30, 8, s.cvtB0.toNat), (0x31, 8, s.cvtB1.toNat),
      (0x32, 8, s.cvtB2.toNat), (0x33, 8, s.cvtB3.toNat), (0x34, 32, s.cvtOut.toNat), (0x35, 8, (hostImage s 0).toNat),
      (0x36, 8, (hostImage s 1).toNat), (0x37, 8, (hostImage s 2).toNat), (0x38, 8, (hostImage s 3).toNat)] →
    (∃ r, regAt index = some r ∧ regWidth s.addrW r = width) ∧ value < 2 ^ width ∧
    (s.pending = .read index :: rest → step s = .next { s with pending := rest, lastRead := some value })

/-- R36: a reserved index reads 0 and ignores writes. `lastRead` is where the model shows what a read returned (log 12). -/
def Obligations.ReservedIndexesReadZeroAndIgnoreWrites : Prop :=
  ∀ (s : State) (rest : List HostAction) (index value : Nat),
    (0x0B ≤ index ∧ index ≤ 0x0F) ∨ (0x1A ≤ index ∧ index ≤ 0x1F) ∨ (0x22 ≤ index ∧ index ≤ 0x2F) ∨ 0x39 ≤ index →
    (s.pending = .read index :: rest → step s = .next { s with pending := rest, lastRead := some 0 }) ∧
    (s.pending = .write index value :: rest → step s = .next { s with pending := rest })

/-- R37: writes to read-only registers are ignored, ARG and CVT_Bk keep the low bits, reads change nothing of the block, and a
write to another index than CMD's issues no command. `lastRead` is where the model shows what a read returned (log 12). -/
def Obligations.RegisterWritesFollowTheAccessRules : Prop :=
  ∀ (s : State) (rest : List HostAction) (index value : Nat),
    ((0x02 ≤ index ∧ index ≤ 0x0A) ∨ (0x10 ≤ index ∧ index ≤ 0x19) ∨ (0x20 ≤ index ∧ index ≤ 0x21) ∨
        (0x34 ≤ index ∧ index ≤ 0x38) →
      s.pending = .write index value :: rest → step s = .next { s with pending := rest }) ∧
    (s.pending = .write 0x01 value :: rest → step s = .next { s with pending := rest, arg := value % 2 ^ s.addrW }) ∧
    (s.pending = .write 0x30 value :: rest → step s = .next { s with pending := rest, cvtB0 := BitVec.ofNat 8 value }) ∧
    (s.pending = .write 0x31 value :: rest → step s = .next { s with pending := rest, cvtB1 := BitVec.ofNat 8 value }) ∧
    (s.pending = .write 0x32 value :: rest → step s = .next { s with pending := rest, cvtB2 := BitVec.ofNat 8 value }) ∧
    (s.pending = .write 0x33 value :: rest → step s = .next { s with pending := rest, cvtB3 := BitVec.ofNat 8 value }) ∧
    (s.pending = .read index :: rest → ∃ v, step s = .next { s with pending := rest, lastRead := some v }) ∧
    (index ≠ 0x00 → s.pending = .write index value :: rest → ∃ a b0 b1 b2 b3, step s = .next { s with
      pending := rest, arg := a, cvtB0 := b0, cvtB1 := b1, cvtB2 := b2, cvtB3 := b3 })

/-- R60, R192 duty 1, logs 7 and 16 (the model's choice): binding gives IBUF the host's bytes and marks the offsets below LEN whose
byte changed; storing changes one byte and marks it likewise, and at an offset the buffer does not have makes it readable;
neither touches a register. -/
def Obligations.HostBufferChangesAreMarked : Prop :=
  ∀ (s : State) (rest : List HostAction),
    (∀ bytes : List Byte, s.pending = .bind bytes :: rest →
      ∃ m c, step s = .next { s with pending := rest, ibuf := m, changed := c } ∧
        (∀ a, Memory.read m a = bytes[a]?) ∧
        ∀ a, a ∈ c ↔ a ∈ s.changed ∨ (a < s.len ∧ Memory.read s.ibuf a ≠ bytes[a]?)) ∧
    (∀ (offset : Nat) (byte : Byte), s.pending = .store offset byte :: rest →
      ∃ m c, step s = .next { s with pending := rest, ibuf := m, changed := c } ∧
        (∀ a, Memory.read m a = if a = offset then some byte else Memory.read s.ibuf a) ∧
        ∀ a, a ∈ c ↔ a ∈ s.changed ∨ (a = offset ∧ a < s.len ∧ Memory.read s.ibuf a ≠ some byte))

/-! Reset. -/

/-- R42: what `State.reset` and a reset at any time leave; the result registers are unspecified, so nothing is said of them; a
reset action does not change IBUF. That a reset action keeps ADDR_W, HOST_ENDIAN and the host's remaining pending actions is
the model's choice, no rule of the spec (log 14, DEDUCED; the parameters as fields of State are log 1's, the pending actions
log 9's). -/
def Obligations.ResetLeavesTheTableValues : Prop :=
  (∀ t : State, (t = State.reset ∨ ∃ s rest, s.pending = .reset :: rest ∧ step s = .next t) →
    t.pos = 0 ∧ t.len = 0 ∧ t.arg = 0 ∧ indexValue 0x08 t = 0 ∧ indexValue 0x02 t = 0x02 ∧
    t.err = false ∧ t.phValid = false ∧ t.shValid = false ∧ t.thValid = false ∧ t.thSec = false ∧
    t.cvtValid = false ∧ t.cvtW32 = false ∧ t.errKind = 0#8 ∧ t.errNeeded = 0 ∧ t.errAvail = 0 ∧
    t.viewBase = 0 ∧ t.viewLen = 0 ∧ t.cvtB0 = 0#8 ∧ t.cvtB1 = 0#8 ∧ t.cvtB2 = 0#8 ∧ t.cvtB3 = 0#8) ∧
  (∀ (s : State) (rest : List HostAction), s.pending = .reset :: rest →
    ∃ t, step s = .next t ∧ t.ibuf = s.ibuf ∧ t.addrW = s.addrW ∧ t.hostEndian = s.hostEndian ∧ t.pending = rest)

/-- R191: what each command does right after a reset (with ARG written as `n`), and how START of an empty view compares: it
leaves the cursor, error record, view and header flags of reset, and the converter's flags and operands as they were, where
reset clears them. The result registers are unspecified after reset, so nothing is said of them. -/
def Obligations.CommandsRightAfterReset : Prop :=
  ∀ r : State, (r = State.reset ∨ ∃ s rest, s.pending = .reset :: rest ∧ step s = .next r) →
    (∀ n : Nat, 0 < n → exec .read { r with arg := n } = .next { r with
      arg := n, err := true, errKind := 1#8, errNeeded := n, errAvail := 0 }) ∧
    exec .read r = .next r ∧
    (∀ i : Instr, i = .decph ∨ i = .decsh ∨ i = .decth → exec i r = .next { r with
      err := true, errKind := 1#8, errNeeded := 6, errAvail := 0 }) ∧
    (∀ b0 b1, exec .cvt16 { r with cvtB0 := b0, cvtB1 := b1 } = .next { r with
      cvtB0 := b0, cvtB1 := b1, cvtOut := (b0 ++ b1).setWidth 32, cvtW32 := false, cvtValid := true }) ∧
    (∀ b0 b1 b2 b3, exec .cvt32 { r with cvtB0 := b0, cvtB1 := b1, cvtB2 := b2, cvtB3 := b3 } = .next { r with
      cvtB0 := b0, cvtB1 := b1, cvtB2 := b2, cvtB3 := b3, cvtOut := b0 ++ b1 ++ b2 ++ b3, cvtW32 := true,
      cvtValid := true }) ∧
    (r.cvtValid = false ∧ r.cvtW32 = false ∧ r.cvtB0 = 0#8 ∧ r.cvtB1 = 0#8 ∧ r.cvtB2 = 0#8 ∧ r.cvtB3 = 0#8) ∧
    (∀ s : State, s.arg = 0 → ∃ t, exec .start s = .next t ∧
      t.pos = r.pos ∧ t.len = r.len ∧ t.arg = r.arg ∧ t.err = r.err ∧ t.errKind = r.errKind ∧
      t.errNeeded = r.errNeeded ∧ t.errAvail = r.errAvail ∧ t.viewBase = r.viewBase ∧ t.viewLen = r.viewLen ∧
      t.phValid = r.phValid ∧ t.shValid = r.shValid ∧ t.thValid = r.thValid ∧ t.thSec = r.thSec ∧
      t.cvtValid = s.cvtValid ∧ t.cvtW32 = s.cvtW32 ∧ t.cvtB0 = s.cvtB0 ∧ t.cvtB1 = s.cvtB1 ∧
      t.cvtB2 = s.cvtB2 ∧ t.cvtB3 = s.cvtB3)

/-! The invariant, isolation and safe runs. -/

/-- The invariant (R5, R22, R24, R27, R28, R31, R33, R34) holds after reset. -/
def Obligations.ResetMeetsTheInvariant : Prop := State.reset.Inv

/-- Every step from a state that meets the invariant keeps it: the cursor stays in the view (R22), the registers fit their widths,
the error record and the header flags stay coherent (R27, R28, R34), IBUF stays canonical. -/
def Obligations.StepKeepsTheInvariant : Prop :=
  ∀ s t : State, s.Inv → step s = .next t → t.Inv

/-- R64: HOST_ENDIAN is seen in nothing but the values a host read returns: two machines that differ in it alone go through the
same states, action for action, and stop at the same time. -/
def Obligations.HostByteOrderIsInvisibleToCommands : Prop :=
  ∀ (k : Nat) (s : State) (e : Endian),
    (∀ t, Host.Core.run Sys2Proof.core k s = .next t →
      ∃ r, Host.Core.run Sys2Proof.core k { s with hostEndian := e } = .next { t with hostEndian := e, lastRead := r }) ∧
    (∀ f, Host.Core.run Sys2Proof.core k s = .fault f →
      Host.Core.run Sys2Proof.core k { s with hostEndian := e } = .fault f) ∧
    (∀ r, Host.Core.run Sys2Proof.core k s = .refused r →
      Host.Core.run Sys2Proof.core k { s with hostEndian := e } = .refused r)

/-- R192 and 93_implementation_defined.md I5, logs 5 and 10: a step stops only where a host duty is broken: a fault means a
header command whose view IBUF does not fill, a refusal means a CMD write of more than 8 bits. -/
def Obligations.StepStopsOnlyOnABrokenDuty : Prop :=
  ∀ s : State,
    (∀ f, step s = .fault f → ∃ i v rest, f = .ibufUnreadable i ∧ (i = .decph ∨ i = .decsh ∨ i = .decth) ∧
      s.pending = .write 0x00 v :: rest ∧ BitVec.ofNat 8 v = encode i ∧ s.err = false ∧
      ∃ a, s.pos ≤ a ∧ a < s.len ∧ Memory.read s.ibuf a = none) ∧
    (∀ r, step s = .refused r → ∃ v rest, r = .overwideCommand v ∧ 256 ≤ v ∧ s.pending = .write 0x00 v :: rest)

/-- R192: while the host keeps its duties, no run stops, however long. Offsets the host gave bytes by stores outside the bound buffer
count as readable (the model's choice, log 16). -/
def Obligations.DutifulHostRunsOn : Prop :=
  ∀ s : State, s.Dutiful → s.RunsOn
end

