-- ==== Sys2Proof/Laws/Memory.lean ====
section
/-! SUPPORT. The laws of IBUF's operations: a read after a write, the canonical form, what a bound buffer holds, and the marking
of changed offsets. -/

namespace Sys2Proof.Machine

/-! Reads and writes. -/

@[simp] theorem Memory.read_nil (a : Nat) : Memory.read [] a = none := rfl

theorem Memory.read_cons (x : Nat) (b : Byte) (m : Memory) (a : Nat) :
    Memory.read ((x, b) :: m) a = if x = a then some b else Memory.read m a := rfl

/-- Read after write, same offset. -/
@[simp] theorem Memory.read_write_same (m : Memory) (a : Nat) (b : Byte) :
    Memory.read (Memory.write m a b) a = some b := by
  induction m with
  | nil => simp [Memory.write, Memory.read_cons]
  | cons cell rest ih =>
    obtain ⟨x, c⟩ := cell
    unfold Memory.write
    split
    · simp [Memory.read_cons]
    · split
      · simp [Memory.read_cons]
      · simp only [Memory.read_cons]
        rw [if_neg (by omega)]
        exact ih

/-- Read after write, another offset. -/
theorem Memory.read_write_other (m : Memory) (a c : Nat) (b : Byte) (h : c ≠ a) :
    Memory.read (Memory.write m a b) c = Memory.read m c := by
  induction m with
  | nil => simp [Memory.write, Memory.read_cons, h.symm]
  | cons cell rest ih =>
    obtain ⟨x, d⟩ := cell
    unfold Memory.write
    split
    · simp [Memory.read_cons, h.symm]
    · split
      · rename_i hx
        subst hx
        simp [Memory.read_cons, h.symm]
      · simp only [Memory.read_cons, ih]

/-! The canonical form. -/

theorem Memory.risesFrom_mono {lo lo' : Nat} {m : Memory} (h : lo' ≤ lo) (hm : Memory.risesFrom lo m = true) :
    Memory.risesFrom lo' m = true := by
  cases m with
  | nil => rfl
  | cons cell rest =>
    obtain ⟨x, c⟩ := cell
    simp only [Memory.risesFrom, Bool.and_eq_true, decide_eq_true_eq] at hm ⊢
    exact ⟨by omega, hm.2⟩

theorem Memory.risesFrom_write {lo : Nat} {m : Memory} (a : Nat) (b : Byte) (ha : lo ≤ a)
    (hm : Memory.risesFrom lo m = true) : Memory.risesFrom lo (Memory.write m a b) = true := by
  induction m generalizing lo with
  | nil => simp [Memory.write, Memory.risesFrom, ha]
  | cons cell rest ih =>
    obtain ⟨x, c⟩ := cell
    simp only [Memory.risesFrom, Bool.and_eq_true, decide_eq_true_eq] at hm
    unfold Memory.write
    split
    · simp only [Memory.risesFrom, Bool.and_eq_true, decide_eq_true_eq]
      exact ⟨ha, by omega, hm.2⟩
    · split
      · subst x
        simp only [Memory.risesFrom, Bool.and_eq_true, decide_eq_true_eq]
        exact hm
      · simp only [Memory.risesFrom, Bool.and_eq_true, decide_eq_true_eq]
        exact ⟨hm.1, ih (by omega) hm.2⟩

/-- A write keeps the canonical form. -/
theorem Memory.wf_write {m : Memory} (a : Nat) (b : Byte) (hm : Memory.wf m = true) :
    Memory.wf (Memory.write m a b) = true :=
  Memory.risesFrom_write a b (Nat.zero_le a) hm

theorem Memory.risesFrom_ofBytesAt (a : Nat) (bytes : List Byte) :
    Memory.risesFrom a (Memory.ofBytesAt a bytes) = true := by
  induction bytes generalizing a with
  | nil => rfl
  | cons b rest ih => simp [Memory.ofBytesAt, Memory.risesFrom, ih]

/-- A bound buffer has the canonical form. -/
@[simp] theorem Memory.wf_ofBytes (bytes : List Byte) : Memory.wf (Memory.ofBytes bytes) = true :=
  Memory.risesFrom_ofBytesAt 0 bytes

@[simp] theorem Memory.wf_nil : Memory.wf [] = true := rfl

/-! What a bound buffer holds. -/

theorem Memory.read_ofBytesAt (a k : Nat) (bytes : List Byte) :
    Memory.read (Memory.ofBytesAt a bytes) (a + k) = bytes[k]? := by
  induction bytes generalizing a k with
  | nil => rfl
  | cons b rest ih =>
    cases k with
    | zero => simp [Memory.ofBytesAt, Memory.read_cons]
    | succ k =>
      rw [Memory.ofBytesAt, Memory.read_cons, if_neg (by omega), show a + (k + 1) = a + 1 + k by omega, ih]
      simp

/-- Offset `k` of a bound buffer is its byte number `k`. -/
@[simp] theorem Memory.read_ofBytes (k : Nat) (bytes : List Byte) :
    Memory.read (Memory.ofBytes bytes) k = bytes[k]? := by
  have h := Memory.read_ofBytesAt 0 k bytes
  rwa [Nat.zero_add] at h

/-- An offset that is readable is listed. -/
theorem Memory.mem_offsets_of_read {m : Memory} {a : Nat} (h : Memory.read m a ≠ none) : a ∈ Memory.offsets m := by
  induction m with
  | nil => exact absurd rfl h
  | cons cell rest ih =>
    obtain ⟨x, c⟩ := cell
    by_cases hx : x = a
    · simp [Memory.offsets, hx]
    · rw [Memory.read_cons, if_neg hx] at h
      exact List.mem_cons_of_mem _ (ih h)

/-- Byte `k` of `MemRead(a, n)`. -/
theorem Memory.getElem_readMany (m : Memory) (a n k : Nat) (hk : k < n) :
    (Memory.readMany m a n)[k]? = some (Memory.read m (a + k)) := by
  induction n generalizing a k with
  | zero => omega
  | succ n ih =>
    cases k with
    | zero => simp [Memory.readMany]
    | succ k =>
      simp only [Memory.readMany, List.getElem?_cons_succ]
      rw [ih (a + 1) k (by omega), show a + 1 + k = a + (k + 1) by omega]

@[simp] theorem Memory.length_readMany (m : Memory) (a n : Nat) : (Memory.readMany m a n).length = n := by
  induction n generalizing a with
  | zero => rfl
  | succ n ih => simp [Memory.readMany, ih]

/-! Changed offsets. -/

@[simp] theorem mem_insertOffset {a x : Nat} {l : List Nat} : x ∈ insertOffset a l ↔ x = a ∨ x ∈ l := by
  induction l with
  | nil => simp [insertOffset]
  | cons y rest ih =>
    unfold insertOffset
    split
    · simp
    · split
      · rename_i h
        subst h
        simp
      · simp only [List.mem_cons, ih]
        tauto

theorem offsetsRise_insertOffset {lo hi a : Nat} {l : List Nat} (hlo : lo ≤ a) (hhi : a < hi)
    (h : offsetsRise lo hi l = true) : offsetsRise lo hi (insertOffset a l) = true := by
  induction l generalizing lo with
  | nil => simp [insertOffset, offsetsRise, hlo, hhi]
  | cons y rest ih =>
    simp only [offsetsRise, Bool.and_eq_true, decide_eq_true_eq] at h
    unfold insertOffset
    split
    · simp only [offsetsRise, Bool.and_eq_true, decide_eq_true_eq]
      exact ⟨⟨hlo, hhi⟩, ⟨by omega, h.1.2⟩, h.2⟩
    · split
      · simp only [offsetsRise, Bool.and_eq_true, decide_eq_true_eq]
        exact h
      · simp only [offsetsRise, Bool.and_eq_true, decide_eq_true_eq]
        exact ⟨h.1, ih (by omega) h.2⟩

/-- Marking keeps the offsets rising and below `len`. -/
theorem offsetsRise_markChanged (len : Nat) (old new : Memory) (as l : List Nat) (h : offsetsRise 0 len l = true) :
    offsetsRise 0 len (markChanged len old new as l) = true := by
  induction as generalizing l with
  | nil => exact h
  | cons a rest ih =>
    unfold markChanged
    apply ih
    split
    · split
      · exact h
      · exact offsetsRise_insertOffset (Nat.zero_le a) ‹_› h
    · exact h

/-- Which offsets are marked afterwards. -/
theorem mem_markChanged {len : Nat} {old new : Memory} {as l : List Nat} {x : Nat} :
    x ∈ markChanged len old new as l ↔
      x ∈ l ∨ (x ∈ as ∧ x < len ∧ Memory.read old x ≠ Memory.read new x) := by
  induction as generalizing l with
  | nil => simp [markChanged]
  | cons a rest ih =>
    unfold markChanged
    rw [ih]
    split
    · split
      · rename_i hlt heq
        constructor
        · rintro (h | h)
          · exact .inl h
          · exact .inr ⟨List.mem_cons_of_mem _ h.1, h.2⟩
        · rintro (h | ⟨h, h'⟩)
          · exact .inl h
          · rcases List.mem_cons.1 h with rfl | h
            · exact absurd heq h'.2
            · exact .inr ⟨h, h'⟩
      · rename_i hlt hne
        rw [mem_insertOffset]
        constructor
        · rintro ((rfl | h) | h)
          · exact .inr ⟨List.mem_cons_self, hlt, hne⟩
          · exact .inl h
          · exact .inr ⟨List.mem_cons_of_mem _ h.1, h.2⟩
        · rintro (h | ⟨h, h'⟩)
          · exact .inl (.inr h)
          · rcases List.mem_cons.1 h with rfl | h
            · exact .inl (.inl rfl)
            · exact .inr ⟨h, h'⟩
    · rename_i hge
      constructor
      · rintro (h | h)
        · exact .inl h
        · exact .inr ⟨List.mem_cons_of_mem _ h.1, h.2⟩
      · rintro (h | ⟨h, h'⟩)
        · exact .inl h
        · rcases List.mem_cons.1 h with rfl | h
          · exact absurd h'.1 hge
          · exact .inr ⟨h, h'⟩

/-- Nothing is marked where nothing differs below `len`. -/
theorem markChanged_nil_of_agree {len : Nat} {old new : Memory} {as : List Nat}
    (h : ∀ a, a < len → Memory.read old a = Memory.read new a) : markChanged len old new as [] = [] := by
  apply List.eq_nil_iff_forall_not_mem.2
  intro x hx
  rcases mem_markChanged.1 hx with h' | ⟨-, hlt, hne⟩
  · simp at h'
  · exact hne (h x hlt)

end Sys2Proof.Machine
end

