-- ==== Sys2Proof/Laws/Operands.lean ====
section
/-! SUPPORT. Big-endian assembly as concatenation and as a number, the secondary-header flag as a bit, the bytes of a value. -/

namespace Sys2Proof.Machine

@[simp] theorem phSize_eq : phSize = 6 := rfl

@[simp] theorem shSize_eq : shSize = 6 := rfl

/-- `be16` is the concatenation of the two bytes, the first more significant (R8). -/
theorem be16_eq_append (b0 b1 : Byte) : be16 b0 b1 = b0 ++ b1 := by
  apply BitVec.eq_of_getLsbD_eq
  intro i hi
  simp only [be16, BitVec.getLsbD_or, BitVec.getLsbD_shiftLeft, BitVec.getLsbD_setWidth, BitVec.getLsbD_append]
  by_cases h : i < 8
  · simp [h, hi]
  · have : 8 ≤ i := by omega
    have h16 : i - 8 < 16 := by omega
    simp [h, hi, h16, BitVec.getLsbD_of_ge b1 i this]

/-- `be32` is the concatenation of the four bytes, the first most significant (R8). -/
theorem be32_eq_append (b0 b1 b2 b3 : Byte) : be32 b0 b1 b2 b3 = b0 ++ b1 ++ b2 ++ b3 := by
  apply BitVec.eq_of_getLsbD_eq
  intro i hi
  simp only [be32, BitVec.getLsbD_or, BitVec.getLsbD_shiftLeft, BitVec.getLsbD_setWidth, BitVec.getLsbD_append]
  have g (b : Byte) (k : Nat) (h : 8 ≤ k) : b.getLsbD k = false := BitVec.getLsbD_of_ge b k h
  rcases (by omega : i < 8 ∨ (8 ≤ i ∧ i < 16) ∨ (16 ≤ i ∧ i < 24) ∨ (24 ≤ i ∧ i < 32)) with h | h | h | h
  · simp [show i < 8 by omega, show i < 16 by omega, show i < 24 by omega, show i < 32 by omega]
  · simp [show ¬ i < 8 by omega, show i < 16 by omega, show i < 24 by omega, show i < 32 by omega,
      show i - 8 < 8 by omega, show i - 8 < 32 by omega, g b3 i (by omega)]
  · simp [show ¬ i < 8 by omega, show ¬ i < 16 by omega, show i < 24 by omega, show i < 32 by omega,
      show ¬ i - 8 < 8 by omega, show i - 8 - 8 = i - 16 by omega, show i - 16 < 8 by omega, show i - 16 < 32 by omega,
      g b3 i (by omega), g b2 (i - 8) (by omega)]
  · simp [show ¬ i < 8 by omega, show ¬ i < 16 by omega, show ¬ i < 24 by omega, show i < 32 by omega,
      show ¬ i - 8 < 8 by omega, show i - 8 - 8 = i - 16 by omega, show ¬ i - 16 < 8 by omega,
      show i - 16 - 8 = i - 24 by omega, show i - 24 < 32 by omega,
      g b3 i (by omega), g b2 (i - 8) (by omega), g b1 (i - 16) (by omega)]

/-- `be16` as a number (R63). -/
theorem be16_toNat (b0 b1 : Byte) : (be16 b0 b1).toNat = b0.toNat * 2 ^ 8 + b1.toNat := by
  rw [be16_eq_append, BitVec.toNat_append, ← Nat.shiftLeft_add_eq_or_of_lt b1.isLt, Nat.shiftLeft_eq]

/-- `be32` as a number (R63). -/
theorem be32_toNat (b0 b1 b2 b3 : Byte) :
    (be32 b0 b1 b2 b3).toNat = b0.toNat * 2 ^ 24 + b1.toNat * 2 ^ 16 + b2.toNat * 2 ^ 8 + b3.toNat := by
  rw [be32_eq_append, BitVec.toNat_append, ← Nat.shiftLeft_add_eq_or_of_lt b3.isLt, Nat.shiftLeft_eq,
    BitVec.toNat_append, ← Nat.shiftLeft_add_eq_or_of_lt b2.isLt, Nat.shiftLeft_eq,
    BitVec.toNat_append, ← Nat.shiftLeft_add_eq_or_of_lt b1.isLt, Nat.shiftLeft_eq]
  omega

/-- has_secondary_header is bit 11 of the word (R30). -/
theorem hasSecondaryHeader_eq_bit (w0 : Word16) : hasSecondaryHeader w0 = w0.getLsbD 11 := by
  unfold hasSecondaryHeader
  rw [show w0 &&& 0x0800#16 = (BitVec.ofBool (w0.getLsbD 11)).setWidth 16 <<< 11 from ?_]
  · cases w0.getLsbD 11 <;> decide
  · apply BitVec.eq_of_getLsbD_eq
    intro i hi
    rcases (by omega : i = 0 ∨ i = 1 ∨ i = 2 ∨ i = 3 ∨ i = 4 ∨ i = 5 ∨ i = 6 ∨ i = 7 ∨ i = 8 ∨ i = 9 ∨ i = 10 ∨ i = 11 ∨
      i = 12 ∨ i = 13 ∨ i = 14 ∨ i = 15) with h | h | h | h | h | h | h | h | h | h | h | h | h | h | h | h <;>
      subst h <;> simp

/-! The other subfields are slices of their words (R30). -/

theorem applicationId_eq_slice (w : Word16) : applicationId w = w.extractLsb' 0 11 := by
  apply BitVec.eq_of_getLsbD_eq
  intro i hi
  interval_cases i <;> simp [applicationId]

theorem packetType_eq_slice (w : Word16) : packetType w = w.extractLsb' 12 1 := by
  apply BitVec.eq_of_getLsbD_eq
  intro i hi
  obtain rfl : i = 0 := by omega
  simp [packetType]

theorem ccsdsVersion_eq_slice (w : Word16) : ccsdsVersion w = w.extractLsb' 13 3 := by
  apply BitVec.eq_of_getLsbD_eq
  intro i hi
  interval_cases i <;> simp [ccsdsVersion]

theorem sequenceCount_eq_slice (w : Word16) : sequenceCount w = w.extractLsb' 0 14 := by
  apply BitVec.eq_of_getLsbD_eq
  intro i hi
  interval_cases i <;> simp [sequenceCount]

theorem segmentationFlags_eq_slice (w : Word16) : segmentationFlags w = w.extractLsb' 14 2 := by
  apply BitVec.eq_of_getLsbD_eq
  intro i hi
  interval_cases i <;> simp [segmentationFlags]

/-- has_secondary_header of the first word is bit 3 of the first byte (R88). -/
theorem hasSecondaryHeader_be16 (b0 b1 : Byte) : hasSecondaryHeader (be16 b0 b1) = b0.getLsbD 3 := by
  rw [hasSecondaryHeader_eq_bit, be16_eq_append, BitVec.getLsbD_append]
  simp

@[simp] theorem decodePrimary_w0 (p : HeaderBytes) : (decodePrimary p).w0 = be16 p.b0 p.b1 := rfl
@[simp] theorem decodePrimary_w1 (p : HeaderBytes) : (decodePrimary p).w1 = be16 p.b2 p.b3 := rfl
@[simp] theorem decodePrimary_w2 (p : HeaderBytes) : (decodePrimary p).w2 = be16 p.b4 p.b5 := rfl
@[simp] theorem decodeSecondary_seconds (p : HeaderBytes) :
    (decodeSecondary p).seconds = be32 p.b0 p.b1 p.b2 p.b3 := rfl
@[simp] theorem decodeSecondary_subseconds (p : HeaderBytes) : (decodeSecondary p).subseconds = be16 p.b4 p.b5 := rfl

/-! The bytes of a big-endian value. -/

/-- A byte of a value as a number. -/
theorem byteOf_toNat (v : Word32) (k : Nat) : (byteOf v k).toNat = v.toNat / 2 ^ (8 * k) % 2 ^ 8 := by
  simp [byteOf, Nat.shiftRight_eq_div_pow]

theorem byteOf_be32_0 (b0 b1 b2 b3 : Byte) : byteOf (be32 b0 b1 b2 b3) 0 = b3 := by
  apply BitVec.eq_of_toNat_eq
  rw [byteOf_toNat, be32_toNat]
  omega

theorem byteOf_be32_1 (b0 b1 b2 b3 : Byte) : byteOf (be32 b0 b1 b2 b3) 1 = b2 := by
  apply BitVec.eq_of_toNat_eq
  rw [byteOf_toNat, be32_toNat]
  omega

theorem byteOf_be32_2 (b0 b1 b2 b3 : Byte) : byteOf (be32 b0 b1 b2 b3) 2 = b1 := by
  apply BitVec.eq_of_toNat_eq
  rw [byteOf_toNat, be32_toNat]
  omega

theorem byteOf_be32_3 (b0 b1 b2 b3 : Byte) : byteOf (be32 b0 b1 b2 b3) 3 = b0 := by
  apply BitVec.eq_of_toNat_eq
  rw [byteOf_toNat, be32_toNat]
  omega

/-- A zero-extended 16-bit value as a 32-bit one. -/
theorem be16_setWidth (b0 b1 : Byte) : (be16 b0 b1).setWidth 32 = be32 0#8 0#8 b0 b1 := by
  apply BitVec.eq_of_toNat_eq
  rw [be32_toNat, BitVec.toNat_setWidth, be16_toNat]
  simp
  omega

/-- A byte of a value is its slice. -/
theorem byteOf_eq_extract (v : Word32) (k : Nat) : byteOf v k = v.extractLsb' (8 * k) 8 := rfl

end Sys2Proof.Machine
end

