-- ==== Sys2Proof/Laws/State.lean ====
section
/-! SUPPORT. One lemma per field per named update of the state: what each update of Machine/Ops.lean and Machine/Flags.lean writes
and what it leaves. -/

namespace Sys2Proof.Machine

variable (s : State)

/-! `raiseInsufficientData` -/

@[simp] theorem raiseInsufficientData_addrW (n a : Nat) : (raiseInsufficientData n a s).addrW = s.addrW := rfl
@[simp] theorem raiseInsufficientData_hostEndian (n a : Nat) : (raiseInsufficientData n a s).hostEndian = s.hostEndian := rfl
@[simp] theorem raiseInsufficientData_pos (n a : Nat) : (raiseInsufficientData n a s).pos = s.pos := rfl
@[simp] theorem raiseInsufficientData_len (n a : Nat) : (raiseInsufficientData n a s).len = s.len := rfl
@[simp] theorem raiseInsufficientData_arg (n a : Nat) : (raiseInsufficientData n a s).arg = s.arg := rfl
@[simp] theorem raiseInsufficientData_err (n a : Nat) : (raiseInsufficientData n a s).err = true := rfl
@[simp] theorem raiseInsufficientData_phValid (n a : Nat) : (raiseInsufficientData n a s).phValid = s.phValid := rfl
@[simp] theorem raiseInsufficientData_shValid (n a : Nat) : (raiseInsufficientData n a s).shValid = s.shValid := rfl
@[simp] theorem raiseInsufficientData_thValid (n a : Nat) : (raiseInsufficientData n a s).thValid = s.thValid := rfl
@[simp] theorem raiseInsufficientData_thSec (n a : Nat) : (raiseInsufficientData n a s).thSec = s.thSec := rfl
@[simp] theorem raiseInsufficientData_cvtValid (n a : Nat) : (raiseInsufficientData n a s).cvtValid = s.cvtValid := rfl
@[simp] theorem raiseInsufficientData_cvtW32 (n a : Nat) : (raiseInsufficientData n a s).cvtW32 = s.cvtW32 := rfl
@[simp] theorem raiseInsufficientData_errKind (n a : Nat) : (raiseInsufficientData n a s).errKind = 1#8 := rfl
@[simp] theorem raiseInsufficientData_errNeeded (n a : Nat) : (raiseInsufficientData n a s).errNeeded = n := rfl
@[simp] theorem raiseInsufficientData_errAvail (n a : Nat) : (raiseInsufficientData n a s).errAvail = a := rfl
@[simp] theorem raiseInsufficientData_viewBase (n a : Nat) : (raiseInsufficientData n a s).viewBase = s.viewBase := rfl
@[simp] theorem raiseInsufficientData_viewLen (n a : Nat) : (raiseInsufficientData n a s).viewLen = s.viewLen := rfl
@[simp] theorem raiseInsufficientData_phW0 (n a : Nat) : (raiseInsufficientData n a s).phW0 = s.phW0 := rfl
@[simp] theorem raiseInsufficientData_phW1 (n a : Nat) : (raiseInsufficientData n a s).phW1 = s.phW1 := rfl
@[simp] theorem raiseInsufficientData_phW2 (n a : Nat) : (raiseInsufficientData n a s).phW2 = s.phW2 := rfl
@[simp] theorem raiseInsufficientData_shSeconds (n a : Nat) : (raiseInsufficientData n a s).shSeconds = s.shSeconds := rfl
@[simp] theorem raiseInsufficientData_shSubsec (n a : Nat) : (raiseInsufficientData n a s).shSubsec = s.shSubsec := rfl
@[simp] theorem raiseInsufficientData_cvtB0 (n a : Nat) : (raiseInsufficientData n a s).cvtB0 = s.cvtB0 := rfl
@[simp] theorem raiseInsufficientData_cvtB1 (n a : Nat) : (raiseInsufficientData n a s).cvtB1 = s.cvtB1 := rfl
@[simp] theorem raiseInsufficientData_cvtB2 (n a : Nat) : (raiseInsufficientData n a s).cvtB2 = s.cvtB2 := rfl
@[simp] theorem raiseInsufficientData_cvtB3 (n a : Nat) : (raiseInsufficientData n a s).cvtB3 = s.cvtB3 := rfl
@[simp] theorem raiseInsufficientData_cvtOut (n a : Nat) : (raiseInsufficientData n a s).cvtOut = s.cvtOut := rfl
@[simp] theorem raiseInsufficientData_ibuf (n a : Nat) : (raiseInsufficientData n a s).ibuf = s.ibuf := rfl
@[simp] theorem raiseInsufficientData_changed (n a : Nat) : (raiseInsufficientData n a s).changed = s.changed := rfl
@[simp] theorem raiseInsufficientData_draws (n a : Nat) : (raiseInsufficientData n a s).draws = s.draws := rfl
@[simp] theorem raiseInsufficientData_pending (n a : Nat) : (raiseInsufficientData n a s).pending = s.pending := rfl
@[simp] theorem raiseInsufficientData_lastRead (n a : Nat) : (raiseInsufficientData n a s).lastRead = s.lastRead := rfl

/-! `clearError` -/

@[simp] theorem clearError_addrW : (clearError s).addrW = s.addrW := rfl
@[simp] theorem clearError_hostEndian : (clearError s).hostEndian = s.hostEndian := rfl
@[simp] theorem clearError_pos : (clearError s).pos = s.pos := rfl
@[simp] theorem clearError_len : (clearError s).len = s.len := rfl
@[simp] theorem clearError_arg : (clearError s).arg = s.arg := rfl
@[simp] theorem clearError_err : (clearError s).err = false := rfl
@[simp] theorem clearError_phValid : (clearError s).phValid = s.phValid := rfl
@[simp] theorem clearError_shValid : (clearError s).shValid = s.shValid := rfl
@[simp] theorem clearError_thValid : (clearError s).thValid = s.thValid := rfl
@[simp] theorem clearError_thSec : (clearError s).thSec = s.thSec := rfl
@[simp] theorem clearError_cvtValid : (clearError s).cvtValid = s.cvtValid := rfl
@[simp] theorem clearError_cvtW32 : (clearError s).cvtW32 = s.cvtW32 := rfl
@[simp] theorem clearError_errKind : (clearError s).errKind = 0#8 := rfl
@[simp] theorem clearError_errNeeded : (clearError s).errNeeded = 0 := rfl
@[simp] theorem clearError_errAvail : (clearError s).errAvail = 0 := rfl
@[simp] theorem clearError_viewBase : (clearError s).viewBase = s.viewBase := rfl
@[simp] theorem clearError_viewLen : (clearError s).viewLen = s.viewLen := rfl
@[simp] theorem clearError_phW0 : (clearError s).phW0 = s.phW0 := rfl
@[simp] theorem clearError_phW1 : (clearError s).phW1 = s.phW1 := rfl
@[simp] theorem clearError_phW2 : (clearError s).phW2 = s.phW2 := rfl
@[simp] theorem clearError_shSeconds : (clearError s).shSeconds = s.shSeconds := rfl
@[simp] theorem clearError_shSubsec : (clearError s).shSubsec = s.shSubsec := rfl
@[simp] theorem clearError_cvtB0 : (clearError s).cvtB0 = s.cvtB0 := rfl
@[simp] theorem clearError_cvtB1 : (clearError s).cvtB1 = s.cvtB1 := rfl
@[simp] theorem clearError_cvtB2 : (clearError s).cvtB2 = s.cvtB2 := rfl
@[simp] theorem clearError_cvtB3 : (clearError s).cvtB3 = s.cvtB3 := rfl
@[simp] theorem clearError_cvtOut : (clearError s).cvtOut = s.cvtOut := rfl
@[simp] theorem clearError_ibuf : (clearError s).ibuf = s.ibuf := rfl
@[simp] theorem clearError_changed : (clearError s).changed = s.changed := rfl
@[simp] theorem clearError_draws : (clearError s).draws = s.draws := rfl
@[simp] theorem clearError_pending : (clearError s).pending = s.pending := rfl
@[simp] theorem clearError_lastRead : (clearError s).lastRead = s.lastRead := rfl

/-! `advance` -/

@[simp] theorem advance_addrW (n : Nat) : (advance n s).addrW = s.addrW := rfl
@[simp] theorem advance_hostEndian (n : Nat) : (advance n s).hostEndian = s.hostEndian := rfl
@[simp] theorem advance_pos (n : Nat) : (advance n s).pos = s.pos + n := rfl
@[simp] theorem advance_len (n : Nat) : (advance n s).len = s.len := rfl
@[simp] theorem advance_arg (n : Nat) : (advance n s).arg = s.arg := rfl
@[simp] theorem advance_err (n : Nat) : (advance n s).err = s.err := rfl
@[simp] theorem advance_phValid (n : Nat) : (advance n s).phValid = s.phValid := rfl
@[simp] theorem advance_shValid (n : Nat) : (advance n s).shValid = s.shValid := rfl
@[simp] theorem advance_thValid (n : Nat) : (advance n s).thValid = s.thValid := rfl
@[simp] theorem advance_thSec (n : Nat) : (advance n s).thSec = s.thSec := rfl
@[simp] theorem advance_cvtValid (n : Nat) : (advance n s).cvtValid = s.cvtValid := rfl
@[simp] theorem advance_cvtW32 (n : Nat) : (advance n s).cvtW32 = s.cvtW32 := rfl
@[simp] theorem advance_errKind (n : Nat) : (advance n s).errKind = s.errKind := rfl
@[simp] theorem advance_errNeeded (n : Nat) : (advance n s).errNeeded = s.errNeeded := rfl
@[simp] theorem advance_errAvail (n : Nat) : (advance n s).errAvail = s.errAvail := rfl
@[simp] theorem advance_viewBase (n : Nat) : (advance n s).viewBase = s.viewBase := rfl
@[simp] theorem advance_viewLen (n : Nat) : (advance n s).viewLen = s.viewLen := rfl
@[simp] theorem advance_phW0 (n : Nat) : (advance n s).phW0 = s.phW0 := rfl
@[simp] theorem advance_phW1 (n : Nat) : (advance n s).phW1 = s.phW1 := rfl
@[simp] theorem advance_phW2 (n : Nat) : (advance n s).phW2 = s.phW2 := rfl
@[simp] theorem advance_shSeconds (n : Nat) : (advance n s).shSeconds = s.shSeconds := rfl
@[simp] theorem advance_shSubsec (n : Nat) : (advance n s).shSubsec = s.shSubsec := rfl
@[simp] theorem advance_cvtB0 (n : Nat) : (advance n s).cvtB0 = s.cvtB0 := rfl
@[simp] theorem advance_cvtB1 (n : Nat) : (advance n s).cvtB1 = s.cvtB1 := rfl
@[simp] theorem advance_cvtB2 (n : Nat) : (advance n s).cvtB2 = s.cvtB2 := rfl
@[simp] theorem advance_cvtB3 (n : Nat) : (advance n s).cvtB3 = s.cvtB3 := rfl
@[simp] theorem advance_cvtOut (n : Nat) : (advance n s).cvtOut = s.cvtOut := rfl
@[simp] theorem advance_ibuf (n : Nat) : (advance n s).ibuf = s.ibuf := rfl
@[simp] theorem advance_changed (n : Nat) : (advance n s).changed = s.changed := rfl
@[simp] theorem advance_draws (n : Nat) : (advance n s).draws = s.draws := rfl
@[simp] theorem advance_pending (n : Nat) : (advance n s).pending = s.pending := rfl
@[simp] theorem advance_lastRead (n : Nat) : (advance n s).lastRead = s.lastRead := rfl

/-! `bindView` -/

@[simp] theorem bindView_addrW (n : Nat) : (bindView n s).addrW = s.addrW := rfl
@[simp] theorem bindView_hostEndian (n : Nat) : (bindView n s).hostEndian = s.hostEndian := rfl
@[simp] theorem bindView_pos (n : Nat) : (bindView n s).pos = 0 := rfl
@[simp] theorem bindView_len (n : Nat) : (bindView n s).len = n := rfl
@[simp] theorem bindView_arg (n : Nat) : (bindView n s).arg = s.arg := rfl
@[simp] theorem bindView_err (n : Nat) : (bindView n s).err = s.err := rfl
@[simp] theorem bindView_phValid (n : Nat) : (bindView n s).phValid = s.phValid := rfl
@[simp] theorem bindView_shValid (n : Nat) : (bindView n s).shValid = s.shValid := rfl
@[simp] theorem bindView_thValid (n : Nat) : (bindView n s).thValid = s.thValid := rfl
@[simp] theorem bindView_thSec (n : Nat) : (bindView n s).thSec = s.thSec := rfl
@[simp] theorem bindView_cvtValid (n : Nat) : (bindView n s).cvtValid = s.cvtValid := rfl
@[simp] theorem bindView_cvtW32 (n : Nat) : (bindView n s).cvtW32 = s.cvtW32 := rfl
@[simp] theorem bindView_errKind (n : Nat) : (bindView n s).errKind = s.errKind := rfl
@[simp] theorem bindView_errNeeded (n : Nat) : (bindView n s).errNeeded = s.errNeeded := rfl
@[simp] theorem bindView_errAvail (n : Nat) : (bindView n s).errAvail = s.errAvail := rfl
@[simp] theorem bindView_viewBase (n : Nat) : (bindView n s).viewBase = 0 := rfl
@[simp] theorem bindView_viewLen (n : Nat) : (bindView n s).viewLen = 0 := rfl
@[simp] theorem bindView_phW0 (n : Nat) : (bindView n s).phW0 = s.phW0 := rfl
@[simp] theorem bindView_phW1 (n : Nat) : (bindView n s).phW1 = s.phW1 := rfl
@[simp] theorem bindView_phW2 (n : Nat) : (bindView n s).phW2 = s.phW2 := rfl
@[simp] theorem bindView_shSeconds (n : Nat) : (bindView n s).shSeconds = s.shSeconds := rfl
@[simp] theorem bindView_shSubsec (n : Nat) : (bindView n s).shSubsec = s.shSubsec := rfl
@[simp] theorem bindView_cvtB0 (n : Nat) : (bindView n s).cvtB0 = s.cvtB0 := rfl
@[simp] theorem bindView_cvtB1 (n : Nat) : (bindView n s).cvtB1 = s.cvtB1 := rfl
@[simp] theorem bindView_cvtB2 (n : Nat) : (bindView n s).cvtB2 = s.cvtB2 := rfl
@[simp] theorem bindView_cvtB3 (n : Nat) : (bindView n s).cvtB3 = s.cvtB3 := rfl
@[simp] theorem bindView_cvtOut (n : Nat) : (bindView n s).cvtOut = s.cvtOut := rfl
@[simp] theorem bindView_ibuf (n : Nat) : (bindView n s).ibuf = s.ibuf := rfl
@[simp] theorem bindView_changed (n : Nat) : (bindView n s).changed = [] := rfl
@[simp] theorem bindView_draws (n : Nat) : (bindView n s).draws = s.draws := rfl
@[simp] theorem bindView_pending (n : Nat) : (bindView n s).pending = s.pending := rfl
@[simp] theorem bindView_lastRead (n : Nat) : (bindView n s).lastRead = s.lastRead := rfl

/-! `setView` -/

@[simp] theorem setView_addrW (b n : Nat) : (setView b n s).addrW = s.addrW := rfl
@[simp] theorem setView_hostEndian (b n : Nat) : (setView b n s).hostEndian = s.hostEndian := rfl
@[simp] theorem setView_pos (b n : Nat) : (setView b n s).pos = s.pos := rfl
@[simp] theorem setView_len (b n : Nat) : (setView b n s).len = s.len := rfl
@[simp] theorem setView_arg (b n : Nat) : (setView b n s).arg = s.arg := rfl
@[simp] theorem setView_err (b n : Nat) : (setView b n s).err = s.err := rfl
@[simp] theorem setView_phValid (b n : Nat) : (setView b n s).phValid = s.phValid := rfl
@[simp] theorem setView_shValid (b n : Nat) : (setView b n s).shValid = s.shValid := rfl
@[simp] theorem setView_thValid (b n : Nat) : (setView b n s).thValid = s.thValid := rfl
@[simp] theorem setView_thSec (b n : Nat) : (setView b n s).thSec = s.thSec := rfl
@[simp] theorem setView_cvtValid (b n : Nat) : (setView b n s).cvtValid = s.cvtValid := rfl
@[simp] theorem setView_cvtW32 (b n : Nat) : (setView b n s).cvtW32 = s.cvtW32 := rfl
@[simp] theorem setView_errKind (b n : Nat) : (setView b n s).errKind = s.errKind := rfl
@[simp] theorem setView_errNeeded (b n : Nat) : (setView b n s).errNeeded = s.errNeeded := rfl
@[simp] theorem setView_errAvail (b n : Nat) : (setView b n s).errAvail = s.errAvail := rfl
@[simp] theorem setView_viewBase (b n : Nat) : (setView b n s).viewBase = b := rfl
@[simp] theorem setView_viewLen (b n : Nat) : (setView b n s).viewLen = n := rfl
@[simp] theorem setView_phW0 (b n : Nat) : (setView b n s).phW0 = s.phW0 := rfl
@[simp] theorem setView_phW1 (b n : Nat) : (setView b n s).phW1 = s.phW1 := rfl
@[simp] theorem setView_phW2 (b n : Nat) : (setView b n s).phW2 = s.phW2 := rfl
@[simp] theorem setView_shSeconds (b n : Nat) : (setView b n s).shSeconds = s.shSeconds := rfl
@[simp] theorem setView_shSubsec (b n : Nat) : (setView b n s).shSubsec = s.shSubsec := rfl
@[simp] theorem setView_cvtB0 (b n : Nat) : (setView b n s).cvtB0 = s.cvtB0 := rfl
@[simp] theorem setView_cvtB1 (b n : Nat) : (setView b n s).cvtB1 = s.cvtB1 := rfl
@[simp] theorem setView_cvtB2 (b n : Nat) : (setView b n s).cvtB2 = s.cvtB2 := rfl
@[simp] theorem setView_cvtB3 (b n : Nat) : (setView b n s).cvtB3 = s.cvtB3 := rfl
@[simp] theorem setView_cvtOut (b n : Nat) : (setView b n s).cvtOut = s.cvtOut := rfl
@[simp] theorem setView_ibuf (b n : Nat) : (setView b n s).ibuf = s.ibuf := rfl
@[simp] theorem setView_changed (b n : Nat) : (setView b n s).changed = s.changed := rfl
@[simp] theorem setView_draws (b n : Nat) : (setView b n s).draws = s.draws := rfl
@[simp] theorem setView_pending (b n : Nat) : (setView b n s).pending = s.pending := rfl
@[simp] theorem setView_lastRead (b n : Nat) : (setView b n s).lastRead = s.lastRead := rfl

/-! `latchPrimary` -/

@[simp] theorem latchPrimary_addrW (w : PrimaryWords) : (latchPrimary w s).addrW = s.addrW := rfl
@[simp] theorem latchPrimary_hostEndian (w : PrimaryWords) : (latchPrimary w s).hostEndian = s.hostEndian := rfl
@[simp] theorem latchPrimary_pos (w : PrimaryWords) : (latchPrimary w s).pos = s.pos := rfl
@[simp] theorem latchPrimary_len (w : PrimaryWords) : (latchPrimary w s).len = s.len := rfl
@[simp] theorem latchPrimary_arg (w : PrimaryWords) : (latchPrimary w s).arg = s.arg := rfl
@[simp] theorem latchPrimary_err (w : PrimaryWords) : (latchPrimary w s).err = s.err := rfl
@[simp] theorem latchPrimary_phValid (w : PrimaryWords) : (latchPrimary w s).phValid = s.phValid := rfl
@[simp] theorem latchPrimary_shValid (w : PrimaryWords) : (latchPrimary w s).shValid = s.shValid := rfl
@[simp] theorem latchPrimary_thValid (w : PrimaryWords) : (latchPrimary w s).thValid = s.thValid := rfl
@[simp] theorem latchPrimary_thSec (w : PrimaryWords) : (latchPrimary w s).thSec = s.thSec := rfl
@[simp] theorem latchPrimary_cvtValid (w : PrimaryWords) : (latchPrimary w s).cvtValid = s.cvtValid := rfl
@[simp] theorem latchPrimary_cvtW32 (w : PrimaryWords) : (latchPrimary w s).cvtW32 = s.cvtW32 := rfl
@[simp] theorem latchPrimary_errKind (w : PrimaryWords) : (latchPrimary w s).errKind = s.errKind := rfl
@[simp] theorem latchPrimary_errNeeded (w : PrimaryWords) : (latchPrimary w s).errNeeded = s.errNeeded := rfl
@[simp] theorem latchPrimary_errAvail (w : PrimaryWords) : (latchPrimary w s).errAvail = s.errAvail := rfl
@[simp] theorem latchPrimary_viewBase (w : PrimaryWords) : (latchPrimary w s).viewBase = s.viewBase := rfl
@[simp] theorem latchPrimary_viewLen (w : PrimaryWords) : (latchPrimary w s).viewLen = s.viewLen := rfl
@[simp] theorem latchPrimary_phW0 (w : PrimaryWords) : (latchPrimary w s).phW0 = w.w0 := rfl
@[simp] theorem latchPrimary_phW1 (w : PrimaryWords) : (latchPrimary w s).phW1 = w.w1 := rfl
@[simp] theorem latchPrimary_phW2 (w : PrimaryWords) : (latchPrimary w s).phW2 = w.w2 := rfl
@[simp] theorem latchPrimary_shSeconds (w : PrimaryWords) : (latchPrimary w s).shSeconds = s.shSeconds := rfl
@[simp] theorem latchPrimary_shSubsec (w : PrimaryWords) : (latchPrimary w s).shSubsec = s.shSubsec := rfl
@[simp] theorem latchPrimary_cvtB0 (w : PrimaryWords) : (latchPrimary w s).cvtB0 = s.cvtB0 := rfl
@[simp] theorem latchPrimary_cvtB1 (w : PrimaryWords) : (latchPrimary w s).cvtB1 = s.cvtB1 := rfl
@[simp] theorem latchPrimary_cvtB2 (w : PrimaryWords) : (latchPrimary w s).cvtB2 = s.cvtB2 := rfl
@[simp] theorem latchPrimary_cvtB3 (w : PrimaryWords) : (latchPrimary w s).cvtB3 = s.cvtB3 := rfl
@[simp] theorem latchPrimary_cvtOut (w : PrimaryWords) : (latchPrimary w s).cvtOut = s.cvtOut := rfl
@[simp] theorem latchPrimary_ibuf (w : PrimaryWords) : (latchPrimary w s).ibuf = s.ibuf := rfl
@[simp] theorem latchPrimary_changed (w : PrimaryWords) : (latchPrimary w s).changed = s.changed := rfl
@[simp] theorem latchPrimary_draws (w : PrimaryWords) : (latchPrimary w s).draws = s.draws := rfl
@[simp] theorem latchPrimary_pending (w : PrimaryWords) : (latchPrimary w s).pending = s.pending := rfl
@[simp] theorem latchPrimary_lastRead (w : PrimaryWords) : (latchPrimary w s).lastRead = s.lastRead := rfl

/-! `latchSecondary` -/

@[simp] theorem latchSecondary_addrW (v : SecondaryValues) : (latchSecondary v s).addrW = s.addrW := rfl
@[simp] theorem latchSecondary_hostEndian (v : SecondaryValues) : (latchSecondary v s).hostEndian = s.hostEndian := rfl
@[simp] theorem latchSecondary_pos (v : SecondaryValues) : (latchSecondary v s).pos = s.pos := rfl
@[simp] theorem latchSecondary_len (v : SecondaryValues) : (latchSecondary v s).len = s.len := rfl
@[simp] theorem latchSecondary_arg (v : SecondaryValues) : (latchSecondary v s).arg = s.arg := rfl
@[simp] theorem latchSecondary_err (v : SecondaryValues) : (latchSecondary v s).err = s.err := rfl
@[simp] theorem latchSecondary_phValid (v : SecondaryValues) : (latchSecondary v s).phValid = s.phValid := rfl
@[simp] theorem latchSecondary_shValid (v : SecondaryValues) : (latchSecondary v s).shValid = s.shValid := rfl
@[simp] theorem latchSecondary_thValid (v : SecondaryValues) : (latchSecondary v s).thValid = s.thValid := rfl
@[simp] theorem latchSecondary_thSec (v : SecondaryValues) : (latchSecondary v s).thSec = s.thSec := rfl
@[simp] theorem latchSecondary_cvtValid (v : SecondaryValues) : (latchSecondary v s).cvtValid = s.cvtValid := rfl
@[simp] theorem latchSecondary_cvtW32 (v : SecondaryValues) : (latchSecondary v s).cvtW32 = s.cvtW32 := rfl
@[simp] theorem latchSecondary_errKind (v : SecondaryValues) : (latchSecondary v s).errKind = s.errKind := rfl
@[simp] theorem latchSecondary_errNeeded (v : SecondaryValues) : (latchSecondary v s).errNeeded = s.errNeeded := rfl
@[simp] theorem latchSecondary_errAvail (v : SecondaryValues) : (latchSecondary v s).errAvail = s.errAvail := rfl
@[simp] theorem latchSecondary_viewBase (v : SecondaryValues) : (latchSecondary v s).viewBase = s.viewBase := rfl
@[simp] theorem latchSecondary_viewLen (v : SecondaryValues) : (latchSecondary v s).viewLen = s.viewLen := rfl
@[simp] theorem latchSecondary_phW0 (v : SecondaryValues) : (latchSecondary v s).phW0 = s.phW0 := rfl
@[simp] theorem latchSecondary_phW1 (v : SecondaryValues) : (latchSecondary v s).phW1 = s.phW1 := rfl
@[simp] theorem latchSecondary_phW2 (v : SecondaryValues) : (latchSecondary v s).phW2 = s.phW2 := rfl
@[simp] theorem latchSecondary_shSeconds (v : SecondaryValues) : (latchSecondary v s).shSeconds = v.seconds := rfl
@[simp] theorem latchSecondary_shSubsec (v : SecondaryValues) : (latchSecondary v s).shSubsec = v.subseconds := rfl
@[simp] theorem latchSecondary_cvtB0 (v : SecondaryValues) : (latchSecondary v s).cvtB0 = s.cvtB0 := rfl
@[simp] theorem latchSecondary_cvtB1 (v : SecondaryValues) : (latchSecondary v s).cvtB1 = s.cvtB1 := rfl
@[simp] theorem latchSecondary_cvtB2 (v : SecondaryValues) : (latchSecondary v s).cvtB2 = s.cvtB2 := rfl
@[simp] theorem latchSecondary_cvtB3 (v : SecondaryValues) : (latchSecondary v s).cvtB3 = s.cvtB3 := rfl
@[simp] theorem latchSecondary_cvtOut (v : SecondaryValues) : (latchSecondary v s).cvtOut = s.cvtOut := rfl
@[simp] theorem latchSecondary_ibuf (v : SecondaryValues) : (latchSecondary v s).ibuf = s.ibuf := rfl
@[simp] theorem latchSecondary_changed (v : SecondaryValues) : (latchSecondary v s).changed = s.changed := rfl
@[simp] theorem latchSecondary_draws (v : SecondaryValues) : (latchSecondary v s).draws = s.draws := rfl
@[simp] theorem latchSecondary_pending (v : SecondaryValues) : (latchSecondary v s).pending = s.pending := rfl
@[simp] theorem latchSecondary_lastRead (v : SecondaryValues) : (latchSecondary v s).lastRead = s.lastRead := rfl

/-! `latchConversion` -/

@[simp] theorem latchConversion_addrW (v : Word32) (w : Bool) : (latchConversion v w s).addrW = s.addrW := rfl
@[simp] theorem latchConversion_hostEndian (v : Word32) (w : Bool) : (latchConversion v w s).hostEndian = s.hostEndian := rfl
@[simp] theorem latchConversion_pos (v : Word32) (w : Bool) : (latchConversion v w s).pos = s.pos := rfl
@[simp] theorem latchConversion_len (v : Word32) (w : Bool) : (latchConversion v w s).len = s.len := rfl
@[simp] theorem latchConversion_arg (v : Word32) (w : Bool) : (latchConversion v w s).arg = s.arg := rfl
@[simp] theorem latchConversion_err (v : Word32) (w : Bool) : (latchConversion v w s).err = s.err := rfl
@[simp] theorem latchConversion_phValid (v : Word32) (w : Bool) : (latchConversion v w s).phValid = s.phValid := rfl
@[simp] theorem latchConversion_shValid (v : Word32) (w : Bool) : (latchConversion v w s).shValid = s.shValid := rfl
@[simp] theorem latchConversion_thValid (v : Word32) (w : Bool) : (latchConversion v w s).thValid = s.thValid := rfl
@[simp] theorem latchConversion_thSec (v : Word32) (w : Bool) : (latchConversion v w s).thSec = s.thSec := rfl
@[simp] theorem latchConversion_cvtValid (v : Word32) (w : Bool) : (latchConversion v w s).cvtValid = true := rfl
@[simp] theorem latchConversion_cvtW32 (v : Word32) (w : Bool) : (latchConversion v w s).cvtW32 = w := rfl
@[simp] theorem latchConversion_errKind (v : Word32) (w : Bool) : (latchConversion v w s).errKind = s.errKind := rfl
@[simp] theorem latchConversion_errNeeded (v : Word32) (w : Bool) : (latchConversion v w s).errNeeded = s.errNeeded := rfl
@[simp] theorem latchConversion_errAvail (v : Word32) (w : Bool) : (latchConversion v w s).errAvail = s.errAvail := rfl
@[simp] theorem latchConversion_viewBase (v : Word32) (w : Bool) : (latchConversion v w s).viewBase = s.viewBase := rfl
@[simp] theorem latchConversion_viewLen (v : Word32) (w : Bool) : (latchConversion v w s).viewLen = s.viewLen := rfl
@[simp] theorem latchConversion_phW0 (v : Word32) (w : Bool) : (latchConversion v w s).phW0 = s.phW0 := rfl
@[simp] theorem latchConversion_phW1 (v : Word32) (w : Bool) : (latchConversion v w s).phW1 = s.phW1 := rfl
@[simp] theorem latchConversion_phW2 (v : Word32) (w : Bool) : (latchConversion v w s).phW2 = s.phW2 := rfl
@[simp] theorem latchConversion_shSeconds (v : Word32) (w : Bool) : (latchConversion v w s).shSeconds = s.shSeconds := rfl
@[simp] theorem latchConversion_shSubsec (v : Word32) (w : Bool) : (latchConversion v w s).shSubsec = s.shSubsec := rfl
@[simp] theorem latchConversion_cvtB0 (v : Word32) (w : Bool) : (latchConversion v w s).cvtB0 = s.cvtB0 := rfl
@[simp] theorem latchConversion_cvtB1 (v : Word32) (w : Bool) : (latchConversion v w s).cvtB1 = s.cvtB1 := rfl
@[simp] theorem latchConversion_cvtB2 (v : Word32) (w : Bool) : (latchConversion v w s).cvtB2 = s.cvtB2 := rfl
@[simp] theorem latchConversion_cvtB3 (v : Word32) (w : Bool) : (latchConversion v w s).cvtB3 = s.cvtB3 := rfl
@[simp] theorem latchConversion_cvtOut (v : Word32) (w : Bool) : (latchConversion v w s).cvtOut = v := rfl
@[simp] theorem latchConversion_ibuf (v : Word32) (w : Bool) : (latchConversion v w s).ibuf = s.ibuf := rfl
@[simp] theorem latchConversion_changed (v : Word32) (w : Bool) : (latchConversion v w s).changed = s.changed := rfl
@[simp] theorem latchConversion_draws (v : Word32) (w : Bool) : (latchConversion v w s).draws = s.draws := rfl
@[simp] theorem latchConversion_pending (v : Word32) (w : Bool) : (latchConversion v w s).pending = s.pending := rfl
@[simp] theorem latchConversion_lastRead (v : Word32) (w : Bool) : (latchConversion v w s).lastRead = s.lastRead := rfl

/-! `countDraw` -/

@[simp] theorem countDraw_addrW : (countDraw s).addrW = s.addrW := rfl
@[simp] theorem countDraw_hostEndian : (countDraw s).hostEndian = s.hostEndian := rfl
@[simp] theorem countDraw_pos : (countDraw s).pos = s.pos := rfl
@[simp] theorem countDraw_len : (countDraw s).len = s.len := rfl
@[simp] theorem countDraw_arg : (countDraw s).arg = s.arg := rfl
@[simp] theorem countDraw_err : (countDraw s).err = s.err := rfl
@[simp] theorem countDraw_phValid : (countDraw s).phValid = s.phValid := rfl
@[simp] theorem countDraw_shValid : (countDraw s).shValid = s.shValid := rfl
@[simp] theorem countDraw_thValid : (countDraw s).thValid = s.thValid := rfl
@[simp] theorem countDraw_thSec : (countDraw s).thSec = s.thSec := rfl
@[simp] theorem countDraw_cvtValid : (countDraw s).cvtValid = s.cvtValid := rfl
@[simp] theorem countDraw_cvtW32 : (countDraw s).cvtW32 = s.cvtW32 := rfl
@[simp] theorem countDraw_errKind : (countDraw s).errKind = s.errKind := rfl
@[simp] theorem countDraw_errNeeded : (countDraw s).errNeeded = s.errNeeded := rfl
@[simp] theorem countDraw_errAvail : (countDraw s).errAvail = s.errAvail := rfl
@[simp] theorem countDraw_viewBase : (countDraw s).viewBase = s.viewBase := rfl
@[simp] theorem countDraw_viewLen : (countDraw s).viewLen = s.viewLen := rfl
@[simp] theorem countDraw_phW0 : (countDraw s).phW0 = s.phW0 := rfl
@[simp] theorem countDraw_phW1 : (countDraw s).phW1 = s.phW1 := rfl
@[simp] theorem countDraw_phW2 : (countDraw s).phW2 = s.phW2 := rfl
@[simp] theorem countDraw_shSeconds : (countDraw s).shSeconds = s.shSeconds := rfl
@[simp] theorem countDraw_shSubsec : (countDraw s).shSubsec = s.shSubsec := rfl
@[simp] theorem countDraw_cvtB0 : (countDraw s).cvtB0 = s.cvtB0 := rfl
@[simp] theorem countDraw_cvtB1 : (countDraw s).cvtB1 = s.cvtB1 := rfl
@[simp] theorem countDraw_cvtB2 : (countDraw s).cvtB2 = s.cvtB2 := rfl
@[simp] theorem countDraw_cvtB3 : (countDraw s).cvtB3 = s.cvtB3 := rfl
@[simp] theorem countDraw_cvtOut : (countDraw s).cvtOut = s.cvtOut := rfl
@[simp] theorem countDraw_ibuf : (countDraw s).ibuf = s.ibuf := rfl
@[simp] theorem countDraw_changed : (countDraw s).changed = s.changed := rfl
@[simp] theorem countDraw_draws : (countDraw s).draws = s.draws + 1 := rfl
@[simp] theorem countDraw_pending : (countDraw s).pending = s.pending := rfl
@[simp] theorem countDraw_lastRead : (countDraw s).lastRead = s.lastRead := rfl

/-! `markPrimary` -/

@[simp] theorem markPrimary_addrW : (markPrimary s).addrW = s.addrW := rfl
@[simp] theorem markPrimary_hostEndian : (markPrimary s).hostEndian = s.hostEndian := rfl
@[simp] theorem markPrimary_pos : (markPrimary s).pos = s.pos := rfl
@[simp] theorem markPrimary_len : (markPrimary s).len = s.len := rfl
@[simp] theorem markPrimary_arg : (markPrimary s).arg = s.arg := rfl
@[simp] theorem markPrimary_err : (markPrimary s).err = s.err := rfl
@[simp] theorem markPrimary_phValid : (markPrimary s).phValid = true := rfl
@[simp] theorem markPrimary_shValid : (markPrimary s).shValid = s.shValid := rfl
@[simp] theorem markPrimary_thValid : (markPrimary s).thValid = false := rfl
@[simp] theorem markPrimary_thSec : (markPrimary s).thSec = false := rfl
@[simp] theorem markPrimary_cvtValid : (markPrimary s).cvtValid = s.cvtValid := rfl
@[simp] theorem markPrimary_cvtW32 : (markPrimary s).cvtW32 = s.cvtW32 := rfl
@[simp] theorem markPrimary_errKind : (markPrimary s).errKind = s.errKind := rfl
@[simp] theorem markPrimary_errNeeded : (markPrimary s).errNeeded = s.errNeeded := rfl
@[simp] theorem markPrimary_errAvail : (markPrimary s).errAvail = s.errAvail := rfl
@[simp] theorem markPrimary_viewBase : (markPrimary s).viewBase = s.viewBase := rfl
@[simp] theorem markPrimary_viewLen : (markPrimary s).viewLen = s.viewLen := rfl
@[simp] theorem markPrimary_phW0 : (markPrimary s).phW0 = s.phW0 := rfl
@[simp] theorem markPrimary_phW1 : (markPrimary s).phW1 = s.phW1 := rfl
@[simp] theorem markPrimary_phW2 : (markPrimary s).phW2 = s.phW2 := rfl
@[simp] theorem markPrimary_shSeconds : (markPrimary s).shSeconds = s.shSeconds := rfl
@[simp] theorem markPrimary_shSubsec : (markPrimary s).shSubsec = s.shSubsec := rfl
@[simp] theorem markPrimary_cvtB0 : (markPrimary s).cvtB0 = s.cvtB0 := rfl
@[simp] theorem markPrimary_cvtB1 : (markPrimary s).cvtB1 = s.cvtB1 := rfl
@[simp] theorem markPrimary_cvtB2 : (markPrimary s).cvtB2 = s.cvtB2 := rfl
@[simp] theorem markPrimary_cvtB3 : (markPrimary s).cvtB3 = s.cvtB3 := rfl
@[simp] theorem markPrimary_cvtOut : (markPrimary s).cvtOut = s.cvtOut := rfl
@[simp] theorem markPrimary_ibuf : (markPrimary s).ibuf = s.ibuf := rfl
@[simp] theorem markPrimary_changed : (markPrimary s).changed = s.changed := rfl
@[simp] theorem markPrimary_draws : (markPrimary s).draws = s.draws := rfl
@[simp] theorem markPrimary_pending : (markPrimary s).pending = s.pending := rfl
@[simp] theorem markPrimary_lastRead : (markPrimary s).lastRead = s.lastRead := rfl

/-! `markSecondary` -/

@[simp] theorem markSecondary_addrW : (markSecondary s).addrW = s.addrW := rfl
@[simp] theorem markSecondary_hostEndian : (markSecondary s).hostEndian = s.hostEndian := rfl
@[simp] theorem markSecondary_pos : (markSecondary s).pos = s.pos := rfl
@[simp] theorem markSecondary_len : (markSecondary s).len = s.len := rfl
@[simp] theorem markSecondary_arg : (markSecondary s).arg = s.arg := rfl
@[simp] theorem markSecondary_err : (markSecondary s).err = s.err := rfl
@[simp] theorem markSecondary_phValid : (markSecondary s).phValid = s.phValid := rfl
@[simp] theorem markSecondary_shValid : (markSecondary s).shValid = true := rfl
@[simp] theorem markSecondary_thValid : (markSecondary s).thValid = false := rfl
@[simp] theorem markSecondary_thSec : (markSecondary s).thSec = false := rfl
@[simp] theorem markSecondary_cvtValid : (markSecondary s).cvtValid = s.cvtValid := rfl
@[simp] theorem markSecondary_cvtW32 : (markSecondary s).cvtW32 = s.cvtW32 := rfl
@[simp] theorem markSecondary_errKind : (markSecondary s).errKind = s.errKind := rfl
@[simp] theorem markSecondary_errNeeded : (markSecondary s).errNeeded = s.errNeeded := rfl
@[simp] theorem markSecondary_errAvail : (markSecondary s).errAvail = s.errAvail := rfl
@[simp] theorem markSecondary_viewBase : (markSecondary s).viewBase = s.viewBase := rfl
@[simp] theorem markSecondary_viewLen : (markSecondary s).viewLen = s.viewLen := rfl
@[simp] theorem markSecondary_phW0 : (markSecondary s).phW0 = s.phW0 := rfl
@[simp] theorem markSecondary_phW1 : (markSecondary s).phW1 = s.phW1 := rfl
@[simp] theorem markSecondary_phW2 : (markSecondary s).phW2 = s.phW2 := rfl
@[simp] theorem markSecondary_shSeconds : (markSecondary s).shSeconds = s.shSeconds := rfl
@[simp] theorem markSecondary_shSubsec : (markSecondary s).shSubsec = s.shSubsec := rfl
@[simp] theorem markSecondary_cvtB0 : (markSecondary s).cvtB0 = s.cvtB0 := rfl
@[simp] theorem markSecondary_cvtB1 : (markSecondary s).cvtB1 = s.cvtB1 := rfl
@[simp] theorem markSecondary_cvtB2 : (markSecondary s).cvtB2 = s.cvtB2 := rfl
@[simp] theorem markSecondary_cvtB3 : (markSecondary s).cvtB3 = s.cvtB3 := rfl
@[simp] theorem markSecondary_cvtOut : (markSecondary s).cvtOut = s.cvtOut := rfl
@[simp] theorem markSecondary_ibuf : (markSecondary s).ibuf = s.ibuf := rfl
@[simp] theorem markSecondary_changed : (markSecondary s).changed = s.changed := rfl
@[simp] theorem markSecondary_draws : (markSecondary s).draws = s.draws := rfl
@[simp] theorem markSecondary_pending : (markSecondary s).pending = s.pending := rfl
@[simp] theorem markSecondary_lastRead : (markSecondary s).lastRead = s.lastRead := rfl

/-! `markTelemetry` -/

@[simp] theorem markTelemetry_addrW (f : Bool) : (markTelemetry f s).addrW = s.addrW := rfl
@[simp] theorem markTelemetry_hostEndian (f : Bool) : (markTelemetry f s).hostEndian = s.hostEndian := rfl
@[simp] theorem markTelemetry_pos (f : Bool) : (markTelemetry f s).pos = s.pos := rfl
@[simp] theorem markTelemetry_len (f : Bool) : (markTelemetry f s).len = s.len := rfl
@[simp] theorem markTelemetry_arg (f : Bool) : (markTelemetry f s).arg = s.arg := rfl
@[simp] theorem markTelemetry_err (f : Bool) : (markTelemetry f s).err = s.err := rfl
@[simp] theorem markTelemetry_phValid (f : Bool) : (markTelemetry f s).phValid = true := rfl
@[simp] theorem markTelemetry_shValid (f : Bool) : (markTelemetry f s).shValid = f := rfl
@[simp] theorem markTelemetry_thValid (f : Bool) : (markTelemetry f s).thValid = true := rfl
@[simp] theorem markTelemetry_thSec (f : Bool) : (markTelemetry f s).thSec = f := rfl
@[simp] theorem markTelemetry_cvtValid (f : Bool) : (markTelemetry f s).cvtValid = s.cvtValid := rfl
@[simp] theorem markTelemetry_cvtW32 (f : Bool) : (markTelemetry f s).cvtW32 = s.cvtW32 := rfl
@[simp] theorem markTelemetry_errKind (f : Bool) : (markTelemetry f s).errKind = s.errKind := rfl
@[simp] theorem markTelemetry_errNeeded (f : Bool) : (markTelemetry f s).errNeeded = s.errNeeded := rfl
@[simp] theorem markTelemetry_errAvail (f : Bool) : (markTelemetry f s).errAvail = s.errAvail := rfl
@[simp] theorem markTelemetry_viewBase (f : Bool) : (markTelemetry f s).viewBase = s.viewBase := rfl
@[simp] theorem markTelemetry_viewLen (f : Bool) : (markTelemetry f s).viewLen = s.viewLen := rfl
@[simp] theorem markTelemetry_phW0 (f : Bool) : (markTelemetry f s).phW0 = s.phW0 := rfl
@[simp] theorem markTelemetry_phW1 (f : Bool) : (markTelemetry f s).phW1 = s.phW1 := rfl
@[simp] theorem markTelemetry_phW2 (f : Bool) : (markTelemetry f s).phW2 = s.phW2 := rfl
@[simp] theorem markTelemetry_shSeconds (f : Bool) : (markTelemetry f s).shSeconds = s.shSeconds := rfl
@[simp] theorem markTelemetry_shSubsec (f : Bool) : (markTelemetry f s).shSubsec = s.shSubsec := rfl
@[simp] theorem markTelemetry_cvtB0 (f : Bool) : (markTelemetry f s).cvtB0 = s.cvtB0 := rfl
@[simp] theorem markTelemetry_cvtB1 (f : Bool) : (markTelemetry f s).cvtB1 = s.cvtB1 := rfl
@[simp] theorem markTelemetry_cvtB2 (f : Bool) : (markTelemetry f s).cvtB2 = s.cvtB2 := rfl
@[simp] theorem markTelemetry_cvtB3 (f : Bool) : (markTelemetry f s).cvtB3 = s.cvtB3 := rfl
@[simp] theorem markTelemetry_cvtOut (f : Bool) : (markTelemetry f s).cvtOut = s.cvtOut := rfl
@[simp] theorem markTelemetry_ibuf (f : Bool) : (markTelemetry f s).ibuf = s.ibuf := rfl
@[simp] theorem markTelemetry_changed (f : Bool) : (markTelemetry f s).changed = s.changed := rfl
@[simp] theorem markTelemetry_draws (f : Bool) : (markTelemetry f s).draws = s.draws := rfl
@[simp] theorem markTelemetry_pending (f : Bool) : (markTelemetry f s).pending = s.pending := rfl
@[simp] theorem markTelemetry_lastRead (f : Bool) : (markTelemetry f s).lastRead = s.lastRead := rfl

/-! `clearHeaderFlags` -/

@[simp] theorem clearHeaderFlags_addrW : (clearHeaderFlags s).addrW = s.addrW := rfl
@[simp] theorem clearHeaderFlags_hostEndian : (clearHeaderFlags s).hostEndian = s.hostEndian := rfl
@[simp] theorem clearHeaderFlags_pos : (clearHeaderFlags s).pos = s.pos := rfl
@[simp] theorem clearHeaderFlags_len : (clearHeaderFlags s).len = s.len := rfl
@[simp] theorem clearHeaderFlags_arg : (clearHeaderFlags s).arg = s.arg := rfl
@[simp] theorem clearHeaderFlags_err : (clearHeaderFlags s).err = s.err := rfl
@[simp] theorem clearHeaderFlags_phValid : (clearHeaderFlags s).phValid = false := rfl
@[simp] theorem clearHeaderFlags_shValid : (clearHeaderFlags s).shValid = false := rfl
@[simp] theorem clearHeaderFlags_thValid : (clearHeaderFlags s).thValid = false := rfl
@[simp] theorem clearHeaderFlags_thSec : (clearHeaderFlags s).thSec = false := rfl
@[simp] theorem clearHeaderFlags_cvtValid : (clearHeaderFlags s).cvtValid = s.cvtValid := rfl
@[simp] theorem clearHeaderFlags_cvtW32 : (clearHeaderFlags s).cvtW32 = s.cvtW32 := rfl
@[simp] theorem clearHeaderFlags_errKind : (clearHeaderFlags s).errKind = s.errKind := rfl
@[simp] theorem clearHeaderFlags_errNeeded : (clearHeaderFlags s).errNeeded = s.errNeeded := rfl
@[simp] theorem clearHeaderFlags_errAvail : (clearHeaderFlags s).errAvail = s.errAvail := rfl
@[simp] theorem clearHeaderFlags_viewBase : (clearHeaderFlags s).viewBase = s.viewBase := rfl
@[simp] theorem clearHeaderFlags_viewLen : (clearHeaderFlags s).viewLen = s.viewLen := rfl
@[simp] theorem clearHeaderFlags_phW0 : (clearHeaderFlags s).phW0 = s.phW0 := rfl
@[simp] theorem clearHeaderFlags_phW1 : (clearHeaderFlags s).phW1 = s.phW1 := rfl
@[simp] theorem clearHeaderFlags_phW2 : (clearHeaderFlags s).phW2 = s.phW2 := rfl
@[simp] theorem clearHeaderFlags_shSeconds : (clearHeaderFlags s).shSeconds = s.shSeconds := rfl
@[simp] theorem clearHeaderFlags_shSubsec : (clearHeaderFlags s).shSubsec = s.shSubsec := rfl
@[simp] theorem clearHeaderFlags_cvtB0 : (clearHeaderFlags s).cvtB0 = s.cvtB0 := rfl
@[simp] theorem clearHeaderFlags_cvtB1 : (clearHeaderFlags s).cvtB1 = s.cvtB1 := rfl
@[simp] theorem clearHeaderFlags_cvtB2 : (clearHeaderFlags s).cvtB2 = s.cvtB2 := rfl
@[simp] theorem clearHeaderFlags_cvtB3 : (clearHeaderFlags s).cvtB3 = s.cvtB3 := rfl
@[simp] theorem clearHeaderFlags_cvtOut : (clearHeaderFlags s).cvtOut = s.cvtOut := rfl
@[simp] theorem clearHeaderFlags_ibuf : (clearHeaderFlags s).ibuf = s.ibuf := rfl
@[simp] theorem clearHeaderFlags_changed : (clearHeaderFlags s).changed = s.changed := rfl
@[simp] theorem clearHeaderFlags_draws : (clearHeaderFlags s).draws = s.draws := rfl
@[simp] theorem clearHeaderFlags_pending : (clearHeaderFlags s).pending = s.pending := rfl
@[simp] theorem clearHeaderFlags_lastRead : (clearHeaderFlags s).lastRead = s.lastRead := rfl

/-! `setArg` -/

@[simp] theorem setArg_addrW (v : Nat) : (setArg v s).addrW = s.addrW := rfl
@[simp] theorem setArg_hostEndian (v : Nat) : (setArg v s).hostEndian = s.hostEndian := rfl
@[simp] theorem setArg_pos (v : Nat) : (setArg v s).pos = s.pos := rfl
@[simp] theorem setArg_len (v : Nat) : (setArg v s).len = s.len := rfl
@[simp] theorem setArg_arg (v : Nat) : (setArg v s).arg = v % 2 ^ s.addrW := rfl
@[simp] theorem setArg_err (v : Nat) : (setArg v s).err = s.err := rfl
@[simp] theorem setArg_phValid (v : Nat) : (setArg v s).phValid = s.phValid := rfl
@[simp] theorem setArg_shValid (v : Nat) : (setArg v s).shValid = s.shValid := rfl
@[simp] theorem setArg_thValid (v : Nat) : (setArg v s).thValid = s.thValid := rfl
@[simp] theorem setArg_thSec (v : Nat) : (setArg v s).thSec = s.thSec := rfl
@[simp] theorem setArg_cvtValid (v : Nat) : (setArg v s).cvtValid = s.cvtValid := rfl
@[simp] theorem setArg_cvtW32 (v : Nat) : (setArg v s).cvtW32 = s.cvtW32 := rfl
@[simp] theorem setArg_errKind (v : Nat) : (setArg v s).errKind = s.errKind := rfl
@[simp] theorem setArg_errNeeded (v : Nat) : (setArg v s).errNeeded = s.errNeeded := rfl
@[simp] theorem setArg_errAvail (v : Nat) : (setArg v s).errAvail = s.errAvail := rfl
@[simp] theorem setArg_viewBase (v : Nat) : (setArg v s).viewBase = s.viewBase := rfl
@[simp] theorem setArg_viewLen (v : Nat) : (setArg v s).viewLen = s.viewLen := rfl
@[simp] theorem setArg_phW0 (v : Nat) : (setArg v s).phW0 = s.phW0 := rfl
@[simp] theorem setArg_phW1 (v : Nat) : (setArg v s).phW1 = s.phW1 := rfl
@[simp] theorem setArg_phW2 (v : Nat) : (setArg v s).phW2 = s.phW2 := rfl
@[simp] theorem setArg_shSeconds (v : Nat) : (setArg v s).shSeconds = s.shSeconds := rfl
@[simp] theorem setArg_shSubsec (v : Nat) : (setArg v s).shSubsec = s.shSubsec := rfl
@[simp] theorem setArg_cvtB0 (v : Nat) : (setArg v s).cvtB0 = s.cvtB0 := rfl
@[simp] theorem setArg_cvtB1 (v : Nat) : (setArg v s).cvtB1 = s.cvtB1 := rfl
@[simp] theorem setArg_cvtB2 (v : Nat) : (setArg v s).cvtB2 = s.cvtB2 := rfl
@[simp] theorem setArg_cvtB3 (v : Nat) : (setArg v s).cvtB3 = s.cvtB3 := rfl
@[simp] theorem setArg_cvtOut (v : Nat) : (setArg v s).cvtOut = s.cvtOut := rfl
@[simp] theorem setArg_ibuf (v : Nat) : (setArg v s).ibuf = s.ibuf := rfl
@[simp] theorem setArg_changed (v : Nat) : (setArg v s).changed = s.changed := rfl
@[simp] theorem setArg_draws (v : Nat) : (setArg v s).draws = s.draws := rfl
@[simp] theorem setArg_pending (v : Nat) : (setArg v s).pending = s.pending := rfl
@[simp] theorem setArg_lastRead (v : Nat) : (setArg v s).lastRead = s.lastRead := rfl

/-! `setCvtB0` -/

@[simp] theorem setCvtB0_addrW (v : Nat) : (setCvtB0 v s).addrW = s.addrW := rfl
@[simp] theorem setCvtB0_hostEndian (v : Nat) : (setCvtB0 v s).hostEndian = s.hostEndian := rfl
@[simp] theorem setCvtB0_pos (v : Nat) : (setCvtB0 v s).pos = s.pos := rfl
@[simp] theorem setCvtB0_len (v : Nat) : (setCvtB0 v s).len = s.len := rfl
@[simp] theorem setCvtB0_arg (v : Nat) : (setCvtB0 v s).arg = s.arg := rfl
@[simp] theorem setCvtB0_err (v : Nat) : (setCvtB0 v s).err = s.err := rfl
@[simp] theorem setCvtB0_phValid (v : Nat) : (setCvtB0 v s).phValid = s.phValid := rfl
@[simp] theorem setCvtB0_shValid (v : Nat) : (setCvtB0 v s).shValid = s.shValid := rfl
@[simp] theorem setCvtB0_thValid (v : Nat) : (setCvtB0 v s).thValid = s.thValid := rfl
@[simp] theorem setCvtB0_thSec (v : Nat) : (setCvtB0 v s).thSec = s.thSec := rfl
@[simp] theorem setCvtB0_cvtValid (v : Nat) : (setCvtB0 v s).cvtValid = s.cvtValid := rfl
@[simp] theorem setCvtB0_cvtW32 (v : Nat) : (setCvtB0 v s).cvtW32 = s.cvtW32 := rfl
@[simp] theorem setCvtB0_errKind (v : Nat) : (setCvtB0 v s).errKind = s.errKind := rfl
@[simp] theorem setCvtB0_errNeeded (v : Nat) : (setCvtB0 v s).errNeeded = s.errNeeded := rfl
@[simp] theorem setCvtB0_errAvail (v : Nat) : (setCvtB0 v s).errAvail = s.errAvail := rfl
@[simp] theorem setCvtB0_viewBase (v : Nat) : (setCvtB0 v s).viewBase = s.viewBase := rfl
@[simp] theorem setCvtB0_viewLen (v : Nat) : (setCvtB0 v s).viewLen = s.viewLen := rfl
@[simp] theorem setCvtB0_phW0 (v : Nat) : (setCvtB0 v s).phW0 = s.phW0 := rfl
@[simp] theorem setCvtB0_phW1 (v : Nat) : (setCvtB0 v s).phW1 = s.phW1 := rfl
@[simp] theorem setCvtB0_phW2 (v : Nat) : (setCvtB0 v s).phW2 = s.phW2 := rfl
@[simp] theorem setCvtB0_shSeconds (v : Nat) : (setCvtB0 v s).shSeconds = s.shSeconds := rfl
@[simp] theorem setCvtB0_shSubsec (v : Nat) : (setCvtB0 v s).shSubsec = s.shSubsec := rfl
@[simp] theorem setCvtB0_cvtB0 (v : Nat) : (setCvtB0 v s).cvtB0 = BitVec.ofNat 8 v := rfl
@[simp] theorem setCvtB0_cvtB1 (v : Nat) : (setCvtB0 v s).cvtB1 = s.cvtB1 := rfl
@[simp] theorem setCvtB0_cvtB2 (v : Nat) : (setCvtB0 v s).cvtB2 = s.cvtB2 := rfl
@[simp] theorem setCvtB0_cvtB3 (v : Nat) : (setCvtB0 v s).cvtB3 = s.cvtB3 := rfl
@[simp] theorem setCvtB0_cvtOut (v : Nat) : (setCvtB0 v s).cvtOut = s.cvtOut := rfl
@[simp] theorem setCvtB0_ibuf (v : Nat) : (setCvtB0 v s).ibuf = s.ibuf := rfl
@[simp] theorem setCvtB0_changed (v : Nat) : (setCvtB0 v s).changed = s.changed := rfl
@[simp] theorem setCvtB0_draws (v : Nat) : (setCvtB0 v s).draws = s.draws := rfl
@[simp] theorem setCvtB0_pending (v : Nat) : (setCvtB0 v s).pending = s.pending := rfl
@[simp] theorem setCvtB0_lastRead (v : Nat) : (setCvtB0 v s).lastRead = s.lastRead := rfl

/-! `setCvtB1` -/

@[simp] theorem setCvtB1_addrW (v : Nat) : (setCvtB1 v s).addrW = s.addrW := rfl
@[simp] theorem setCvtB1_hostEndian (v : Nat) : (setCvtB1 v s).hostEndian = s.hostEndian := rfl
@[simp] theorem setCvtB1_pos (v : Nat) : (setCvtB1 v s).pos = s.pos := rfl
@[simp] theorem setCvtB1_len (v : Nat) : (setCvtB1 v s).len = s.len := rfl
@[simp] theorem setCvtB1_arg (v : Nat) : (setCvtB1 v s).arg = s.arg := rfl
@[simp] theorem setCvtB1_err (v : Nat) : (setCvtB1 v s).err = s.err := rfl
@[simp] theorem setCvtB1_phValid (v : Nat) : (setCvtB1 v s).phValid = s.phValid := rfl
@[simp] theorem setCvtB1_shValid (v : Nat) : (setCvtB1 v s).shValid = s.shValid := rfl
@[simp] theorem setCvtB1_thValid (v : Nat) : (setCvtB1 v s).thValid = s.thValid := rfl
@[simp] theorem setCvtB1_thSec (v : Nat) : (setCvtB1 v s).thSec = s.thSec := rfl
@[simp] theorem setCvtB1_cvtValid (v : Nat) : (setCvtB1 v s).cvtValid = s.cvtValid := rfl
@[simp] theorem setCvtB1_cvtW32 (v : Nat) : (setCvtB1 v s).cvtW32 = s.cvtW32 := rfl
@[simp] theorem setCvtB1_errKind (v : Nat) : (setCvtB1 v s).errKind = s.errKind := rfl
@[simp] theorem setCvtB1_errNeeded (v : Nat) : (setCvtB1 v s).errNeeded = s.errNeeded := rfl
@[simp] theorem setCvtB1_errAvail (v : Nat) : (setCvtB1 v s).errAvail = s.errAvail := rfl
@[simp] theorem setCvtB1_viewBase (v : Nat) : (setCvtB1 v s).viewBase = s.viewBase := rfl
@[simp] theorem setCvtB1_viewLen (v : Nat) : (setCvtB1 v s).viewLen = s.viewLen := rfl
@[simp] theorem setCvtB1_phW0 (v : Nat) : (setCvtB1 v s).phW0 = s.phW0 := rfl
@[simp] theorem setCvtB1_phW1 (v : Nat) : (setCvtB1 v s).phW1 = s.phW1 := rfl
@[simp] theorem setCvtB1_phW2 (v : Nat) : (setCvtB1 v s).phW2 = s.phW2 := rfl
@[simp] theorem setCvtB1_shSeconds (v : Nat) : (setCvtB1 v s).shSeconds = s.shSeconds := rfl
@[simp] theorem setCvtB1_shSubsec (v : Nat) : (setCvtB1 v s).shSubsec = s.shSubsec := rfl
@[simp] theorem setCvtB1_cvtB0 (v : Nat) : (setCvtB1 v s).cvtB0 = s.cvtB0 := rfl
@[simp] theorem setCvtB1_cvtB1 (v : Nat) : (setCvtB1 v s).cvtB1 = BitVec.ofNat 8 v := rfl
@[simp] theorem setCvtB1_cvtB2 (v : Nat) : (setCvtB1 v s).cvtB2 = s.cvtB2 := rfl
@[simp] theorem setCvtB1_cvtB3 (v : Nat) : (setCvtB1 v s).cvtB3 = s.cvtB3 := rfl
@[simp] theorem setCvtB1_cvtOut (v : Nat) : (setCvtB1 v s).cvtOut = s.cvtOut := rfl
@[simp] theorem setCvtB1_ibuf (v : Nat) : (setCvtB1 v s).ibuf = s.ibuf := rfl
@[simp] theorem setCvtB1_changed (v : Nat) : (setCvtB1 v s).changed = s.changed := rfl
@[simp] theorem setCvtB1_draws (v : Nat) : (setCvtB1 v s).draws = s.draws := rfl
@[simp] theorem setCvtB1_pending (v : Nat) : (setCvtB1 v s).pending = s.pending := rfl
@[simp] theorem setCvtB1_lastRead (v : Nat) : (setCvtB1 v s).lastRead = s.lastRead := rfl

/-! `setCvtB2` -/

@[simp] theorem setCvtB2_addrW (v : Nat) : (setCvtB2 v s).addrW = s.addrW := rfl
@[simp] theorem setCvtB2_hostEndian (v : Nat) : (setCvtB2 v s).hostEndian = s.hostEndian := rfl
@[simp] theorem setCvtB2_pos (v : Nat) : (setCvtB2 v s).pos = s.pos := rfl
@[simp] theorem setCvtB2_len (v : Nat) : (setCvtB2 v s).len = s.len := rfl
@[simp] theorem setCvtB2_arg (v : Nat) : (setCvtB2 v s).arg = s.arg := rfl
@[simp] theorem setCvtB2_err (v : Nat) : (setCvtB2 v s).err = s.err := rfl
@[simp] theorem setCvtB2_phValid (v : Nat) : (setCvtB2 v s).phValid = s.phValid := rfl
@[simp] theorem setCvtB2_shValid (v : Nat) : (setCvtB2 v s).shValid = s.shValid := rfl
@[simp] theorem setCvtB2_thValid (v : Nat) : (setCvtB2 v s).thValid = s.thValid := rfl
@[simp] theorem setCvtB2_thSec (v : Nat) : (setCvtB2 v s).thSec = s.thSec := rfl
@[simp] theorem setCvtB2_cvtValid (v : Nat) : (setCvtB2 v s).cvtValid = s.cvtValid := rfl
@[simp] theorem setCvtB2_cvtW32 (v : Nat) : (setCvtB2 v s).cvtW32 = s.cvtW32 := rfl
@[simp] theorem setCvtB2_errKind (v : Nat) : (setCvtB2 v s).errKind = s.errKind := rfl
@[simp] theorem setCvtB2_errNeeded (v : Nat) : (setCvtB2 v s).errNeeded = s.errNeeded := rfl
@[simp] theorem setCvtB2_errAvail (v : Nat) : (setCvtB2 v s).errAvail = s.errAvail := rfl
@[simp] theorem setCvtB2_viewBase (v : Nat) : (setCvtB2 v s).viewBase = s.viewBase := rfl
@[simp] theorem setCvtB2_viewLen (v : Nat) : (setCvtB2 v s).viewLen = s.viewLen := rfl
@[simp] theorem setCvtB2_phW0 (v : Nat) : (setCvtB2 v s).phW0 = s.phW0 := rfl
@[simp] theorem setCvtB2_phW1 (v : Nat) : (setCvtB2 v s).phW1 = s.phW1 := rfl
@[simp] theorem setCvtB2_phW2 (v : Nat) : (setCvtB2 v s).phW2 = s.phW2 := rfl
@[simp] theorem setCvtB2_shSeconds (v : Nat) : (setCvtB2 v s).shSeconds = s.shSeconds := rfl
@[simp] theorem setCvtB2_shSubsec (v : Nat) : (setCvtB2 v s).shSubsec = s.shSubsec := rfl
@[simp] theorem setCvtB2_cvtB0 (v : Nat) : (setCvtB2 v s).cvtB0 = s.cvtB0 := rfl
@[simp] theorem setCvtB2_cvtB1 (v : Nat) : (setCvtB2 v s).cvtB1 = s.cvtB1 := rfl
@[simp] theorem setCvtB2_cvtB2 (v : Nat) : (setCvtB2 v s).cvtB2 = BitVec.ofNat 8 v := rfl
@[simp] theorem setCvtB2_cvtB3 (v : Nat) : (setCvtB2 v s).cvtB3 = s.cvtB3 := rfl
@[simp] theorem setCvtB2_cvtOut (v : Nat) : (setCvtB2 v s).cvtOut = s.cvtOut := rfl
@[simp] theorem setCvtB2_ibuf (v : Nat) : (setCvtB2 v s).ibuf = s.ibuf := rfl
@[simp] theorem setCvtB2_changed (v : Nat) : (setCvtB2 v s).changed = s.changed := rfl
@[simp] theorem setCvtB2_draws (v : Nat) : (setCvtB2 v s).draws = s.draws := rfl
@[simp] theorem setCvtB2_pending (v : Nat) : (setCvtB2 v s).pending = s.pending := rfl
@[simp] theorem setCvtB2_lastRead (v : Nat) : (setCvtB2 v s).lastRead = s.lastRead := rfl

/-! `setCvtB3` -/

@[simp] theorem setCvtB3_addrW (v : Nat) : (setCvtB3 v s).addrW = s.addrW := rfl
@[simp] theorem setCvtB3_hostEndian (v : Nat) : (setCvtB3 v s).hostEndian = s.hostEndian := rfl
@[simp] theorem setCvtB3_pos (v : Nat) : (setCvtB3 v s).pos = s.pos := rfl
@[simp] theorem setCvtB3_len (v : Nat) : (setCvtB3 v s).len = s.len := rfl
@[simp] theorem setCvtB3_arg (v : Nat) : (setCvtB3 v s).arg = s.arg := rfl
@[simp] theorem setCvtB3_err (v : Nat) : (setCvtB3 v s).err = s.err := rfl
@[simp] theorem setCvtB3_phValid (v : Nat) : (setCvtB3 v s).phValid = s.phValid := rfl
@[simp] theorem setCvtB3_shValid (v : Nat) : (setCvtB3 v s).shValid = s.shValid := rfl
@[simp] theorem setCvtB3_thValid (v : Nat) : (setCvtB3 v s).thValid = s.thValid := rfl
@[simp] theorem setCvtB3_thSec (v : Nat) : (setCvtB3 v s).thSec = s.thSec := rfl
@[simp] theorem setCvtB3_cvtValid (v : Nat) : (setCvtB3 v s).cvtValid = s.cvtValid := rfl
@[simp] theorem setCvtB3_cvtW32 (v : Nat) : (setCvtB3 v s).cvtW32 = s.cvtW32 := rfl
@[simp] theorem setCvtB3_errKind (v : Nat) : (setCvtB3 v s).errKind = s.errKind := rfl
@[simp] theorem setCvtB3_errNeeded (v : Nat) : (setCvtB3 v s).errNeeded = s.errNeeded := rfl
@[simp] theorem setCvtB3_errAvail (v : Nat) : (setCvtB3 v s).errAvail = s.errAvail := rfl
@[simp] theorem setCvtB3_viewBase (v : Nat) : (setCvtB3 v s).viewBase = s.viewBase := rfl
@[simp] theorem setCvtB3_viewLen (v : Nat) : (setCvtB3 v s).viewLen = s.viewLen := rfl
@[simp] theorem setCvtB3_phW0 (v : Nat) : (setCvtB3 v s).phW0 = s.phW0 := rfl
@[simp] theorem setCvtB3_phW1 (v : Nat) : (setCvtB3 v s).phW1 = s.phW1 := rfl
@[simp] theorem setCvtB3_phW2 (v : Nat) : (setCvtB3 v s).phW2 = s.phW2 := rfl
@[simp] theorem setCvtB3_shSeconds (v : Nat) : (setCvtB3 v s).shSeconds = s.shSeconds := rfl
@[simp] theorem setCvtB3_shSubsec (v : Nat) : (setCvtB3 v s).shSubsec = s.shSubsec := rfl
@[simp] theorem setCvtB3_cvtB0 (v : Nat) : (setCvtB3 v s).cvtB0 = s.cvtB0 := rfl
@[simp] theorem setCvtB3_cvtB1 (v : Nat) : (setCvtB3 v s).cvtB1 = s.cvtB1 := rfl
@[simp] theorem setCvtB3_cvtB2 (v : Nat) : (setCvtB3 v s).cvtB2 = s.cvtB2 := rfl
@[simp] theorem setCvtB3_cvtB3 (v : Nat) : (setCvtB3 v s).cvtB3 = BitVec.ofNat 8 v := rfl
@[simp] theorem setCvtB3_cvtOut (v : Nat) : (setCvtB3 v s).cvtOut = s.cvtOut := rfl
@[simp] theorem setCvtB3_ibuf (v : Nat) : (setCvtB3 v s).ibuf = s.ibuf := rfl
@[simp] theorem setCvtB3_changed (v : Nat) : (setCvtB3 v s).changed = s.changed := rfl
@[simp] theorem setCvtB3_draws (v : Nat) : (setCvtB3 v s).draws = s.draws := rfl
@[simp] theorem setCvtB3_pending (v : Nat) : (setCvtB3 v s).pending = s.pending := rfl
@[simp] theorem setCvtB3_lastRead (v : Nat) : (setCvtB3 v s).lastRead = s.lastRead := rfl

/-! `setIbuf` -/

@[simp] theorem setIbuf_addrW (m : Memory) (o : List Nat) : (setIbuf m o s).addrW = s.addrW := rfl
@[simp] theorem setIbuf_hostEndian (m : Memory) (o : List Nat) : (setIbuf m o s).hostEndian = s.hostEndian := rfl
@[simp] theorem setIbuf_pos (m : Memory) (o : List Nat) : (setIbuf m o s).pos = s.pos := rfl
@[simp] theorem setIbuf_len (m : Memory) (o : List Nat) : (setIbuf m o s).len = s.len := rfl
@[simp] theorem setIbuf_arg (m : Memory) (o : List Nat) : (setIbuf m o s).arg = s.arg := rfl
@[simp] theorem setIbuf_err (m : Memory) (o : List Nat) : (setIbuf m o s).err = s.err := rfl
@[simp] theorem setIbuf_phValid (m : Memory) (o : List Nat) : (setIbuf m o s).phValid = s.phValid := rfl
@[simp] theorem setIbuf_shValid (m : Memory) (o : List Nat) : (setIbuf m o s).shValid = s.shValid := rfl
@[simp] theorem setIbuf_thValid (m : Memory) (o : List Nat) : (setIbuf m o s).thValid = s.thValid := rfl
@[simp] theorem setIbuf_thSec (m : Memory) (o : List Nat) : (setIbuf m o s).thSec = s.thSec := rfl
@[simp] theorem setIbuf_cvtValid (m : Memory) (o : List Nat) : (setIbuf m o s).cvtValid = s.cvtValid := rfl
@[simp] theorem setIbuf_cvtW32 (m : Memory) (o : List Nat) : (setIbuf m o s).cvtW32 = s.cvtW32 := rfl
@[simp] theorem setIbuf_errKind (m : Memory) (o : List Nat) : (setIbuf m o s).errKind = s.errKind := rfl
@[simp] theorem setIbuf_errNeeded (m : Memory) (o : List Nat) : (setIbuf m o s).errNeeded = s.errNeeded := rfl
@[simp] theorem setIbuf_errAvail (m : Memory) (o : List Nat) : (setIbuf m o s).errAvail = s.errAvail := rfl
@[simp] theorem setIbuf_viewBase (m : Memory) (o : List Nat) : (setIbuf m o s).viewBase = s.viewBase := rfl
@[simp] theorem setIbuf_viewLen (m : Memory) (o : List Nat) : (setIbuf m o s).viewLen = s.viewLen := rfl
@[simp] theorem setIbuf_phW0 (m : Memory) (o : List Nat) : (setIbuf m o s).phW0 = s.phW0 := rfl
@[simp] theorem setIbuf_phW1 (m : Memory) (o : List Nat) : (setIbuf m o s).phW1 = s.phW1 := rfl
@[simp] theorem setIbuf_phW2 (m : Memory) (o : List Nat) : (setIbuf m o s).phW2 = s.phW2 := rfl
@[simp] theorem setIbuf_shSeconds (m : Memory) (o : List Nat) : (setIbuf m o s).shSeconds = s.shSeconds := rfl
@[simp] theorem setIbuf_shSubsec (m : Memory) (o : List Nat) : (setIbuf m o s).shSubsec = s.shSubsec := rfl
@[simp] theorem setIbuf_cvtB0 (m : Memory) (o : List Nat) : (setIbuf m o s).cvtB0 = s.cvtB0 := rfl
@[simp] theorem setIbuf_cvtB1 (m : Memory) (o : List Nat) : (setIbuf m o s).cvtB1 = s.cvtB1 := rfl
@[simp] theorem setIbuf_cvtB2 (m : Memory) (o : List Nat) : (setIbuf m o s).cvtB2 = s.cvtB2 := rfl
@[simp] theorem setIbuf_cvtB3 (m : Memory) (o : List Nat) : (setIbuf m o s).cvtB3 = s.cvtB3 := rfl
@[simp] theorem setIbuf_cvtOut (m : Memory) (o : List Nat) : (setIbuf m o s).cvtOut = s.cvtOut := rfl
@[simp] theorem setIbuf_ibuf (m : Memory) (o : List Nat) : (setIbuf m o s).ibuf = m := rfl
@[simp] theorem setIbuf_changed (m : Memory) (o : List Nat) : (setIbuf m o s).changed = markChanged s.len s.ibuf m o s.changed := rfl
@[simp] theorem setIbuf_draws (m : Memory) (o : List Nat) : (setIbuf m o s).draws = s.draws := rfl
@[simp] theorem setIbuf_pending (m : Memory) (o : List Nat) : (setIbuf m o s).pending = s.pending := rfl
@[simp] theorem setIbuf_lastRead (m : Memory) (o : List Nat) : (setIbuf m o s).lastRead = s.lastRead := rfl

/-! `returnRead` -/

@[simp] theorem returnRead_addrW (v : Nat) : (returnRead v s).addrW = s.addrW := rfl
@[simp] theorem returnRead_hostEndian (v : Nat) : (returnRead v s).hostEndian = s.hostEndian := rfl
@[simp] theorem returnRead_pos (v : Nat) : (returnRead v s).pos = s.pos := rfl
@[simp] theorem returnRead_len (v : Nat) : (returnRead v s).len = s.len := rfl
@[simp] theorem returnRead_arg (v : Nat) : (returnRead v s).arg = s.arg := rfl
@[simp] theorem returnRead_err (v : Nat) : (returnRead v s).err = s.err := rfl
@[simp] theorem returnRead_phValid (v : Nat) : (returnRead v s).phValid = s.phValid := rfl
@[simp] theorem returnRead_shValid (v : Nat) : (returnRead v s).shValid = s.shValid := rfl
@[simp] theorem returnRead_thValid (v : Nat) : (returnRead v s).thValid = s.thValid := rfl
@[simp] theorem returnRead_thSec (v : Nat) : (returnRead v s).thSec = s.thSec := rfl
@[simp] theorem returnRead_cvtValid (v : Nat) : (returnRead v s).cvtValid = s.cvtValid := rfl
@[simp] theorem returnRead_cvtW32 (v : Nat) : (returnRead v s).cvtW32 = s.cvtW32 := rfl
@[simp] theorem returnRead_errKind (v : Nat) : (returnRead v s).errKind = s.errKind := rfl
@[simp] theorem returnRead_errNeeded (v : Nat) : (returnRead v s).errNeeded = s.errNeeded := rfl
@[simp] theorem returnRead_errAvail (v : Nat) : (returnRead v s).errAvail = s.errAvail := rfl
@[simp] theorem returnRead_viewBase (v : Nat) : (returnRead v s).viewBase = s.viewBase := rfl
@[simp] theorem returnRead_viewLen (v : Nat) : (returnRead v s).viewLen = s.viewLen := rfl
@[simp] theorem returnRead_phW0 (v : Nat) : (returnRead v s).phW0 = s.phW0 := rfl
@[simp] theorem returnRead_phW1 (v : Nat) : (returnRead v s).phW1 = s.phW1 := rfl
@[simp] theorem returnRead_phW2 (v : Nat) : (returnRead v s).phW2 = s.phW2 := rfl
@[simp] theorem returnRead_shSeconds (v : Nat) : (returnRead v s).shSeconds = s.shSeconds := rfl
@[simp] theorem returnRead_shSubsec (v : Nat) : (returnRead v s).shSubsec = s.shSubsec := rfl
@[simp] theorem returnRead_cvtB0 (v : Nat) : (returnRead v s).cvtB0 = s.cvtB0 := rfl
@[simp] theorem returnRead_cvtB1 (v : Nat) : (returnRead v s).cvtB1 = s.cvtB1 := rfl
@[simp] theorem returnRead_cvtB2 (v : Nat) : (returnRead v s).cvtB2 = s.cvtB2 := rfl
@[simp] theorem returnRead_cvtB3 (v : Nat) : (returnRead v s).cvtB3 = s.cvtB3 := rfl
@[simp] theorem returnRead_cvtOut (v : Nat) : (returnRead v s).cvtOut = s.cvtOut := rfl
@[simp] theorem returnRead_ibuf (v : Nat) : (returnRead v s).ibuf = s.ibuf := rfl
@[simp] theorem returnRead_changed (v : Nat) : (returnRead v s).changed = s.changed := rfl
@[simp] theorem returnRead_draws (v : Nat) : (returnRead v s).draws = s.draws := rfl
@[simp] theorem returnRead_pending (v : Nat) : (returnRead v s).pending = s.pending := rfl
@[simp] theorem returnRead_lastRead (v : Nat) : (returnRead v s).lastRead = some v := rfl

/-! `setPending` -/

@[simp] theorem setPending_addrW (l : List HostAction) : (setPending l s).addrW = s.addrW := rfl
@[simp] theorem setPending_hostEndian (l : List HostAction) : (setPending l s).hostEndian = s.hostEndian := rfl
@[simp] theorem setPending_pos (l : List HostAction) : (setPending l s).pos = s.pos := rfl
@[simp] theorem setPending_len (l : List HostAction) : (setPending l s).len = s.len := rfl
@[simp] theorem setPending_arg (l : List HostAction) : (setPending l s).arg = s.arg := rfl
@[simp] theorem setPending_err (l : List HostAction) : (setPending l s).err = s.err := rfl
@[simp] theorem setPending_phValid (l : List HostAction) : (setPending l s).phValid = s.phValid := rfl
@[simp] theorem setPending_shValid (l : List HostAction) : (setPending l s).shValid = s.shValid := rfl
@[simp] theorem setPending_thValid (l : List HostAction) : (setPending l s).thValid = s.thValid := rfl
@[simp] theorem setPending_thSec (l : List HostAction) : (setPending l s).thSec = s.thSec := rfl
@[simp] theorem setPending_cvtValid (l : List HostAction) : (setPending l s).cvtValid = s.cvtValid := rfl
@[simp] theorem setPending_cvtW32 (l : List HostAction) : (setPending l s).cvtW32 = s.cvtW32 := rfl
@[simp] theorem setPending_errKind (l : List HostAction) : (setPending l s).errKind = s.errKind := rfl
@[simp] theorem setPending_errNeeded (l : List HostAction) : (setPending l s).errNeeded = s.errNeeded := rfl
@[simp] theorem setPending_errAvail (l : List HostAction) : (setPending l s).errAvail = s.errAvail := rfl
@[simp] theorem setPending_viewBase (l : List HostAction) : (setPending l s).viewBase = s.viewBase := rfl
@[simp] theorem setPending_viewLen (l : List HostAction) : (setPending l s).viewLen = s.viewLen := rfl
@[simp] theorem setPending_phW0 (l : List HostAction) : (setPending l s).phW0 = s.phW0 := rfl
@[simp] theorem setPending_phW1 (l : List HostAction) : (setPending l s).phW1 = s.phW1 := rfl
@[simp] theorem setPending_phW2 (l : List HostAction) : (setPending l s).phW2 = s.phW2 := rfl
@[simp] theorem setPending_shSeconds (l : List HostAction) : (setPending l s).shSeconds = s.shSeconds := rfl
@[simp] theorem setPending_shSubsec (l : List HostAction) : (setPending l s).shSubsec = s.shSubsec := rfl
@[simp] theorem setPending_cvtB0 (l : List HostAction) : (setPending l s).cvtB0 = s.cvtB0 := rfl
@[simp] theorem setPending_cvtB1 (l : List HostAction) : (setPending l s).cvtB1 = s.cvtB1 := rfl
@[simp] theorem setPending_cvtB2 (l : List HostAction) : (setPending l s).cvtB2 = s.cvtB2 := rfl
@[simp] theorem setPending_cvtB3 (l : List HostAction) : (setPending l s).cvtB3 = s.cvtB3 := rfl
@[simp] theorem setPending_cvtOut (l : List HostAction) : (setPending l s).cvtOut = s.cvtOut := rfl
@[simp] theorem setPending_ibuf (l : List HostAction) : (setPending l s).ibuf = s.ibuf := rfl
@[simp] theorem setPending_changed (l : List HostAction) : (setPending l s).changed = s.changed := rfl
@[simp] theorem setPending_draws (l : List HostAction) : (setPending l s).draws = s.draws := rfl
@[simp] theorem setPending_pending (l : List HostAction) : (setPending l s).pending = l := rfl
@[simp] theorem setPending_lastRead (l : List HostAction) : (setPending l s).lastRead = s.lastRead := rfl

/-! `State.resetOf` -/

variable (w : Nat) (e : Endian) (m : Memory) (d : Nat) (l : List HostAction) (r : Option Nat)

@[simp] theorem resetOf_addrW : (State.resetOf w e m d l r).addrW = w := rfl
@[simp] theorem resetOf_hostEndian : (State.resetOf w e m d l r).hostEndian = e := rfl
@[simp] theorem resetOf_pos : (State.resetOf w e m d l r).pos = 0 := rfl
@[simp] theorem resetOf_len : (State.resetOf w e m d l r).len = 0 := rfl
@[simp] theorem resetOf_arg : (State.resetOf w e m d l r).arg = 0 := rfl
@[simp] theorem resetOf_err : (State.resetOf w e m d l r).err = false := rfl
@[simp] theorem resetOf_phValid : (State.resetOf w e m d l r).phValid = false := rfl
@[simp] theorem resetOf_shValid : (State.resetOf w e m d l r).shValid = false := rfl
@[simp] theorem resetOf_thValid : (State.resetOf w e m d l r).thValid = false := rfl
@[simp] theorem resetOf_thSec : (State.resetOf w e m d l r).thSec = false := rfl
@[simp] theorem resetOf_cvtValid : (State.resetOf w e m d l r).cvtValid = false := rfl
@[simp] theorem resetOf_cvtW32 : (State.resetOf w e m d l r).cvtW32 = false := rfl
@[simp] theorem resetOf_errKind : (State.resetOf w e m d l r).errKind = 0#8 := rfl
@[simp] theorem resetOf_errNeeded : (State.resetOf w e m d l r).errNeeded = 0 := rfl
@[simp] theorem resetOf_errAvail : (State.resetOf w e m d l r).errAvail = 0 := rfl
@[simp] theorem resetOf_viewBase : (State.resetOf w e m d l r).viewBase = 0 := rfl
@[simp] theorem resetOf_viewLen : (State.resetOf w e m d l r).viewLen = 0 := rfl
@[simp] theorem resetOf_phW0 : (State.resetOf w e m d l r).phW0 = Config.resetPhW0 d := rfl
@[simp] theorem resetOf_phW1 : (State.resetOf w e m d l r).phW1 = Config.resetPhW1 d := rfl
@[simp] theorem resetOf_phW2 : (State.resetOf w e m d l r).phW2 = Config.resetPhW2 d := rfl
@[simp] theorem resetOf_shSeconds : (State.resetOf w e m d l r).shSeconds = Config.resetShSeconds d := rfl
@[simp] theorem resetOf_shSubsec : (State.resetOf w e m d l r).shSubsec = Config.resetShSubsec d := rfl
@[simp] theorem resetOf_cvtB0 : (State.resetOf w e m d l r).cvtB0 = 0#8 := rfl
@[simp] theorem resetOf_cvtB1 : (State.resetOf w e m d l r).cvtB1 = 0#8 := rfl
@[simp] theorem resetOf_cvtB2 : (State.resetOf w e m d l r).cvtB2 = 0#8 := rfl
@[simp] theorem resetOf_cvtB3 : (State.resetOf w e m d l r).cvtB3 = 0#8 := rfl
@[simp] theorem resetOf_cvtOut : (State.resetOf w e m d l r).cvtOut = Config.resetCvtOut d := rfl
@[simp] theorem resetOf_ibuf : (State.resetOf w e m d l r).ibuf = m := rfl
@[simp] theorem resetOf_changed : (State.resetOf w e m d l r).changed = [] := rfl
@[simp] theorem resetOf_draws : (State.resetOf w e m d l r).draws = d + 1 := rfl
@[simp] theorem resetOf_pending : (State.resetOf w e m d l r).pending = l := rfl
@[simp] theorem resetOf_lastRead : (State.resetOf w e m d l r).lastRead = r := rfl

end Sys2Proof.Machine
end

