-- ==== Sys2Proof/Laws/Ops.lean ====
section
/-! SUPPORT. One lemma for each shared operation that says everything it can do; proofs cite these and do not unfold it. -/

namespace Sys2Proof.Machine

/-! The cursor. -/

theorem remaining_eq (s : State) : remaining s = s.len - s.pos := rfl

/-- A cursor read that the view cannot satisfy latches the error (R102, R171). -/
theorem cursorRead_short {n : Nat} {s : State} (h : remaining s < n) :
    cursorRead n s = .short (raiseInsufficientData n (remaining s) s) := if_pos h

/-- A cursor read that the view can satisfy advances POS (R102). -/
theorem cursorRead_got {n : Nat} {s : State} (h : n ≤ remaining s) :
    cursorRead n s = .got s.pos (advance n s) := if_neg (by omega)

/-- Everything a cursor read can answer. -/
theorem cursorRead_cases (n : Nat) (s : State) :
    (remaining s < n ∧ cursorRead n s = .short (raiseInsufficientData n (remaining s) s)) ∨
      (n ≤ remaining s ∧ cursorRead n s = .got s.pos (advance n s)) := by
  by_cases h : remaining s < n
  · exact .inl ⟨h, cursorRead_short h⟩
  · exact .inr ⟨by omega, cursorRead_got (by omega)⟩

/-- The test of R102 is the source's `position + n > length` where the cursor is inside the view (R11). -/
theorem remaining_lt_iff {n : Nat} {s : State} (h : s.pos ≤ s.len) : remaining s < n ↔ s.len < s.pos + n := by
  rw [remaining_eq]
  omega

/-! The fetch of header bytes. -/

/-- Where the buffer has no byte, neither has the command. -/
theorem commandByte_eq_none {s : State} {a : Nat} : commandByte s a = none ↔ Memory.read s.ibuf a = none := by
  unfold commandByte
  cases Memory.read s.ibuf a <;> simp

/-- An unchanged byte is the buffer's byte. -/
theorem commandByte_kept {s : State} {a : Nat} (h : a ∉ s.changed) : commandByte s a = Memory.read s.ibuf a := by
  unfold commandByte
  cases Memory.read s.ibuf a <;> simp [h]

/-- A changed byte is a free value. -/
theorem commandByte_changed {s : State} {a : Nat} {b : Byte} (h : a ∈ s.changed) (hb : Memory.read s.ibuf a = some b) :
    commandByte s a = some (Config.changedByte s.draws a) := by
  unfold commandByte
  simp [h, hb]

/-- The byte a command gets depends on IBUF, the changed offsets and the draw counter alone. -/
theorem commandByte_congr {s t : State} (a : Nat) (hm : Memory.read t.ibuf a = Memory.read s.ibuf a)
    (hc : t.changed = s.changed) (hd : t.draws = s.draws) : commandByte t a = commandByte s a := by
  unfold commandByte
  rw [hm, hc, hd]

@[simp] theorem commandByte_advance (n : Nat) (s : State) (a : Nat) : commandByte (advance n s) a = commandByte s a := rfl

/-- The six bytes of a header, byte by byte. -/
theorem headerBytes_eq_some {s : State} {a : Nat} {p : HeaderBytes} :
    headerBytes s a = some p ↔
      commandByte s a = some p.b0 ∧ commandByte s (a + 1) = some p.b1 ∧ commandByte s (a + 2) = some p.b2 ∧
        commandByte s (a + 3) = some p.b3 ∧ commandByte s (a + 4) = some p.b4 ∧ commandByte s (a + 5) = some p.b5 := by
  obtain ⟨p0, p1, p2, p3, p4, p5⟩ := p
  unfold headerBytes
  cases commandByte s a <;> cases commandByte s (a + 1) <;> cases commandByte s (a + 2) <;>
    cases commandByte s (a + 3) <;> cases commandByte s (a + 4) <;> cases commandByte s (a + 5) <;> simp

/-- No header is got exactly where one of its bytes is not readable. -/
theorem headerBytes_eq_none {s : State} {a : Nat} :
    headerBytes s a = none ↔ ∃ k, k < 6 ∧ Memory.read s.ibuf (a + k) = none := by
  constructor
  · intro h
    by_contra hne
    push Not at hne
    have get (k : Nat) (hk : k < 6) : ∃ b, commandByte s (a + k) = some b := by
      rw [← Option.ne_none_iff_exists', ne_eq, commandByte_eq_none]
      exact hne k hk
    obtain ⟨b0, h0⟩ := get 0 (by omega)
    obtain ⟨b1, h1⟩ := get 1 (by omega)
    obtain ⟨b2, h2⟩ := get 2 (by omega)
    obtain ⟨b3, h3⟩ := get 3 (by omega)
    obtain ⟨b4, h4⟩ := get 4 (by omega)
    obtain ⟨b5, h5⟩ := get 5 (by omega)
    rw [Nat.add_zero] at h0
    rw [headerBytes_eq_some (p := ⟨b0, b1, b2, b3, b4, b5⟩).2 ⟨h0, h1, h2, h3, h4, h5⟩] at h
    cases h
  · rintro ⟨k, hk, hr⟩
    rw [← commandByte_eq_none] at hr
    cases h : headerBytes s a with
    | none => rfl
    | some p =>
      obtain ⟨h0, h1, h2, h3, h4, h5⟩ := headerBytes_eq_some.1 h
      rcases (by omega : k = 0 ∨ k = 1 ∨ k = 2 ∨ k = 3 ∨ k = 4 ∨ k = 5) with rfl | rfl | rfl | rfl | rfl | rfl <;>
        simp_all

/-- Everything a header fetch can answer. -/
theorem fetchHeader_cases (a : Nat) (s : State) :
    (fetchHeader a s = none ∧ ∃ k, k < 6 ∧ Memory.read s.ibuf (a + k) = none) ∨
      ∃ p, headerBytes s a = some p ∧ fetchHeader a s = some (p, countDraw s) := by
  cases h : headerBytes s a with
  | none => exact .inl ⟨by simp [fetchHeader, h], headerBytes_eq_none.1 h⟩
  | some p => exact .inr ⟨p, rfl, by simp [fetchHeader, h]⟩

theorem fetchHeader_of_bytes {a : Nat} {s : State} {p : HeaderBytes} (h : headerBytes s a = some p) :
    fetchHeader a s = some (p, countDraw s) := by simp [fetchHeader, h]

theorem fetchHeader_of_unreadable {a : Nat} {s : State} (h : ∃ k, k < 6 ∧ Memory.read s.ibuf (a + k) = none) :
    fetchHeader a s = none := by simp [fetchHeader, headerBytes_eq_none.2 h]

/-! The conversion operands. -/

theorem cvt16Value_eq (s : State) : cvt16Value s = (s.cvtB0 ++ s.cvtB1).setWidth 32 := by
  rw [cvt16Value, be16_eq_append]

theorem cvt32Value_eq (s : State) : cvt32Value s = s.cvtB0 ++ s.cvtB1 ++ s.cvtB2 ++ s.cvtB3 := by
  rw [cvt32Value, be32_eq_append]

theorem cvt16Value_toNat (s : State) : (cvt16Value s).toNat = s.cvtB0.toNat * 2 ^ 8 + s.cvtB1.toNat := by
  rw [cvt16Value, BitVec.toNat_setWidth, be16_toNat]
  omega

theorem cvt32Value_toNat (s : State) : (cvt32Value s).toNat =
    s.cvtB0.toNat * 2 ^ 24 + s.cvtB1.toNat * 2 ^ 16 + s.cvtB2.toNat * 2 ^ 8 + s.cvtB3.toNat :=
  be32_toNat _ _ _ _

end Sys2Proof.Machine
end

