-- ==== Sys2Proof/Laws/Exec.lean ====
section
/-! SUPPORT. Inversion: every outcome each command can have, guards included. Invariants and frames follow from these by cases. -/

namespace Sys2Proof.Machine

/-- Every outcome of READ. -/
theorem execRead_cases (s : State) :
    (s.err = true ∧ execRead s = .next s) ∨
      (s.err = false ∧ remaining s < s.arg ∧ execRead s = .next (raiseInsufficientData s.arg (remaining s) s)) ∨
      (s.err = false ∧ s.arg ≤ remaining s ∧ execRead s = .next (setView s.pos s.arg (advance s.arg s))) := by
  unfold execRead
  cases he : s.err with
  | true => simp
  | false =>
    rcases cursorRead_cases s.arg s with ⟨h, hc⟩ | ⟨h, hc⟩ <;> simp [h, hc]

/-- Every outcome of DECPH. -/
theorem execDecph_cases (s : State) :
    (s.err = true ∧ execDecph s = .next s) ∨
      (s.err = false ∧ remaining s < 6 ∧ execDecph s = .next (raiseInsufficientData 6 (remaining s) s)) ∨
      (s.err = false ∧ 6 ≤ remaining s ∧ (∃ k, k < 6 ∧ Memory.read s.ibuf (s.pos + k) = none) ∧
        execDecph s = .fault (.ibufUnreadable .decph)) ∨
      (∃ p, s.err = false ∧ 6 ≤ remaining s ∧ headerBytes (advance 6 s) s.pos = some p ∧
        execDecph s = .next (markPrimary (latchPrimary (decodePrimary p) (countDraw (advance 6 s))))) := by
  unfold execDecph
  cases he : s.err with
  | true => simp
  | false =>
    simp only [phSize_eq]
    rcases cursorRead_cases 6 s with ⟨h, hc⟩ | ⟨h, hc⟩
    · simp [h, hc]
    · rcases fetchHeader_cases s.pos (advance 6 s) with ⟨hf, hk⟩ | ⟨p, hp, hf⟩
      · exact .inr (.inr (.inl ⟨trivial, h, hk, by simp [hc, hf]⟩))
      · exact .inr (.inr (.inr ⟨p, trivial, h, hp, by simp [hc, hf]⟩))

/-- Every outcome of DECSH. -/
theorem execDecsh_cases (s : State) :
    (s.err = true ∧ execDecsh s = .next s) ∨
      (s.err = false ∧ remaining s < 6 ∧ execDecsh s = .next (raiseInsufficientData 6 (remaining s) s)) ∨
      (s.err = false ∧ 6 ≤ remaining s ∧ (∃ k, k < 6 ∧ Memory.read s.ibuf (s.pos + k) = none) ∧
        execDecsh s = .fault (.ibufUnreadable .decsh)) ∨
      (∃ p, s.err = false ∧ 6 ≤ remaining s ∧ headerBytes (advance 6 s) s.pos = some p ∧
        execDecsh s = .next (markSecondary (latchSecondary (decodeSecondary p) (countDraw (advance 6 s))))) := by
  unfold execDecsh
  cases he : s.err with
  | true => simp
  | false =>
    simp only [shSize_eq]
    rcases cursorRead_cases 6 s with ⟨h, hc⟩ | ⟨h, hc⟩
    · simp [h, hc]
    · rcases fetchHeader_cases s.pos (advance 6 s) with ⟨hf, hk⟩ | ⟨p, hp, hf⟩
      · exact .inr (.inr (.inl ⟨trivial, h, hk, by simp [hc, hf]⟩))
      · exact .inr (.inr (.inr ⟨p, trivial, h, hp, by simp [hc, hf]⟩))

/-- Every outcome of DECTH after its first read. -/
theorem finishTelemetry_cases (w : PrimaryWords) (s : State) :
    (hasSecondaryHeader w.w0 = false ∧ finishTelemetry w s = .next (markTelemetry false (latchPrimary w s))) ∨
      (hasSecondaryHeader w.w0 = true ∧ remaining s < 6 ∧
        finishTelemetry w s = .next (raiseInsufficientData 6 (remaining s) s)) ∨
      (hasSecondaryHeader w.w0 = true ∧ 6 ≤ remaining s ∧ (∃ k, k < 6 ∧ Memory.read s.ibuf (s.pos + k) = none) ∧
        finishTelemetry w s = .fault (.ibufUnreadable .decth)) ∨
      (∃ q, hasSecondaryHeader w.w0 = true ∧ 6 ≤ remaining s ∧ headerBytes (advance 6 s) s.pos = some q ∧
        finishTelemetry w s =
          .next (markTelemetry true (latchSecondary (decodeSecondary q) (latchPrimary w (countDraw (advance 6 s)))))) := by
  unfold finishTelemetry
  cases hw : hasSecondaryHeader w.w0 with
  | false => simp
  | true =>
    simp only [shSize_eq]
    rcases cursorRead_cases 6 s with ⟨h, hc⟩ | ⟨h, hc⟩
    · simp [h, hc]
    · rcases fetchHeader_cases s.pos (advance 6 s) with ⟨hf, hk⟩ | ⟨q, hq, hf⟩
      · exact .inr (.inr (.inl ⟨trivial, h, hk, by simp [hc, hf]⟩))
      · exact .inr (.inr (.inr ⟨q, trivial, h, hq, by simp [hc, hf]⟩))

/-- Every outcome of DECTH, up to what follows its first read. -/
theorem execDecth_cases (s : State) :
    (s.err = true ∧ execDecth s = .next s) ∨
      (s.err = false ∧ remaining s < 6 ∧ execDecth s = .next (raiseInsufficientData 6 (remaining s) s)) ∨
      (s.err = false ∧ 6 ≤ remaining s ∧ (∃ k, k < 6 ∧ Memory.read s.ibuf (s.pos + k) = none) ∧
        execDecth s = .fault (.ibufUnreadable .decth)) ∨
      (∃ p, s.err = false ∧ 6 ≤ remaining s ∧ headerBytes (advance 6 s) s.pos = some p ∧
        execDecth s = finishTelemetry (decodePrimary p) (countDraw (advance 6 s))) := by
  unfold execDecth
  cases he : s.err with
  | true => simp
  | false =>
    simp only [phSize_eq]
    rcases cursorRead_cases 6 s with ⟨h, hc⟩ | ⟨h, hc⟩
    · simp [h, hc]
    · rcases fetchHeader_cases s.pos (advance 6 s) with ⟨hf, hk⟩ | ⟨p, hp, hf⟩
      · exact .inr (.inr (.inl ⟨trivial, h, hk, by simp [hc, hf]⟩))
      · exact .inr (.inr (.inr ⟨p, trivial, h, hp, by simp [hc, hf]⟩))

/-- Everything a command that answers a next state can have done. The bytes of both headers are told in the starting state `s`;
DECTH's second fetch has the first one's draw counted. -/
inductive Effect (s : State) : Instr → State → Prop where
  | start : Effect s .start (clearHeaderFlags (clearError (bindView s.arg s)))
  | cvt16 : Effect s .cvt16 (latchConversion (cvt16Value s) false s)
  | cvt32 : Effect s .cvt32 (latchConversion (cvt32Value s) true s)
  | latched (i : Instr) (hi : i = .read ∨ i = .decph ∨ i = .decsh ∨ i = .decth) (he : s.err = true) : Effect s i s
  | readShort (he : s.err = false) (hr : remaining s < s.arg) :
      Effect s .read (raiseInsufficientData s.arg (remaining s) s)
  | readDone (he : s.err = false) (hr : s.arg ≤ remaining s) : Effect s .read (setView s.pos s.arg (advance s.arg s))
  | headerShort (i : Instr) (hi : i = .decph ∨ i = .decsh ∨ i = .decth) (he : s.err = false) (hr : remaining s < 6) :
      Effect s i (raiseInsufficientData 6 (remaining s) s)
  | decphDone (p : HeaderBytes) (he : s.err = false) (hr : 6 ≤ remaining s) (hp : headerBytes s s.pos = some p) :
      Effect s .decph (markPrimary (latchPrimary (decodePrimary p) (countDraw (advance 6 s))))
  | decshDone (p : HeaderBytes) (he : s.err = false) (hr : 6 ≤ remaining s) (hp : headerBytes s s.pos = some p) :
      Effect s .decsh (markSecondary (latchSecondary (decodeSecondary p) (countDraw (advance 6 s))))
  | decthAlone (p : HeaderBytes) (he : s.err = false) (hr : 6 ≤ remaining s) (hp : headerBytes s s.pos = some p)
      (hf : p.b0.getLsbD 3 = false) :
      Effect s .decth (markTelemetry false (latchPrimary (decodePrimary p) (countDraw (advance 6 s))))
  | decthShort (p : HeaderBytes) (he : s.err = false) (hr : 6 ≤ remaining s) (hp : headerBytes s s.pos = some p)
      (hf : p.b0.getLsbD 3 = true) (hr' : remaining s < 12) :
      Effect s .decth (raiseInsufficientData 6 (remaining s - 6) (countDraw (advance 6 s)))
  | decthBoth (p q : HeaderBytes) (he : s.err = false) (hr : 12 ≤ remaining s) (hp : headerBytes s s.pos = some p)
      (hf : p.b0.getLsbD 3 = true) (hq : headerBytes (countDraw s) (s.pos + 6) = some q) :
      Effect s .decth (markTelemetry true (latchSecondary (decodeSecondary q)
        (latchPrimary (decodePrimary p) (countDraw (advance 6 (countDraw (advance 6 s)))))))

/-- Inversion of `exec`: a next state is one of the effects above. -/
theorem exec_effect {i : Instr} {s t : State} (h : exec i s = .next t) : Effect s i t := by
  cases i with
  | start => cases h; exact .start
  | cvt16 => cases h; exact .cvt16
  | cvt32 => cases h; exact .cvt32
  | read =>
    change execRead s = _ at h
    rcases execRead_cases s with ⟨he, e⟩ | ⟨he, hr, e⟩ | ⟨he, hr, e⟩ <;> rw [e] at h <;> cases h
    · exact .latched _ (by simp) he
    · exact .readShort he hr
    · exact .readDone he hr
  | decph =>
    change execDecph s = _ at h
    rcases execDecph_cases s with ⟨he, e⟩ | ⟨he, hr, e⟩ | ⟨-, -, -, e⟩ | ⟨p, he, hr, hp, e⟩ <;> rw [e] at h <;> cases h
    · exact .latched _ (by simp) he
    · exact .headerShort _ (by simp) he hr
    · exact .decphDone p he hr hp
  | decsh =>
    change execDecsh s = _ at h
    rcases execDecsh_cases s with ⟨he, e⟩ | ⟨he, hr, e⟩ | ⟨-, -, -, e⟩ | ⟨p, he, hr, hp, e⟩ <;> rw [e] at h <;> cases h
    · exact .latched _ (by simp) he
    · exact .headerShort _ (by simp) he hr
    · exact .decshDone p he hr hp
  | decth =>
    change execDecth s = _ at h
    rcases execDecth_cases s with ⟨he, e⟩ | ⟨he, hr, e⟩ | ⟨-, -, -, e⟩ | ⟨p, he, hr, hp, e⟩ <;> rw [e] at h
    · cases h; exact .latched _ (by simp) he
    · cases h; exact .headerShort _ (by simp) he hr
    · cases h
    · have hrem : remaining (countDraw (advance 6 s)) = remaining s - 6 := by simp [remaining_eq]; omega
      rcases finishTelemetry_cases (decodePrimary p) (countDraw (advance 6 s)) with
        ⟨hf, e⟩ | ⟨hf, hr', e⟩ | ⟨-, -, -, e⟩ | ⟨q, hf, hr', hq, e⟩ <;> rw [e] at h <;> cases h
      all_goals rw [decodePrimary_w0, hasSecondaryHeader_be16] at hf
      · exact .decthAlone p he hr hp hf
      · rw [hrem] at hr' ⊢
        exact .decthShort p he hr hp hf (by omega)
      · rw [hrem] at hr'
        exact .decthBoth p q he (by omega) hp hf hq

end Sys2Proof.Machine
end

