-- ==== Sys2Proof/Laws/HostPort.lean ====
section
/-! SUPPORT. What a step does, action by action, and what each kind of register write can do. -/

namespace Sys2Proof.Machine

/-- A step takes up the oldest pending action. -/
theorem step_of_pending {s : State} {a : HostAction} {rest : List HostAction} (h : s.pending = a :: rest) :
    step s = perform a (setPending rest s) := by
  unfold step serveHost
  rw [h]

theorem perform_read (index : Nat) (s : State) :
    perform (.read index) s = .next (returnRead (indexValue index s) s) := rfl

theorem perform_bind (bytes : List Byte) (s : State) :
    perform (.bind bytes) s =
      .next (setIbuf (Memory.ofBytes bytes) (Memory.offsets s.ibuf ++ Memory.offsets (Memory.ofBytes bytes)) s) := rfl

theorem perform_store (offset : Nat) (byte : Byte) (s : State) :
    perform (.store offset byte) s = .next (setIbuf (Memory.write s.ibuf offset byte) [offset] s) := rfl

theorem perform_reset (s : State) :
    perform .reset s = .next (State.resetOf s.addrW s.hostEndian s.ibuf s.draws s.pending s.lastRead) := rfl

theorem perform_write_cmd (value : Nat) (s : State) : perform (.write 0x00 value) s = issueCommand value s := rfl

theorem findReg_mem {l : List (Nat × Reg)} {index : Nat} {r : Reg} (h : findReg l index = some r) : (index, r) ∈ l := by
  induction l with
  | nil => cases h
  | cons row rest ih =>
    obtain ⟨x, q⟩ := row
    unfold findReg at h
    split at h
    · rename_i hx
      cases h
      rw [hx]
      exact List.mem_cons_self
    · exact List.mem_cons_of_mem _ (ih h)

/-- A named register stands at a row of the map. -/
theorem regAt_mem {index : Nat} {r : Reg} (h : regAt index = some r) : (index, r) ∈ registerMap := findReg_mem h

/-- The index of CMD is 0x00 alone. -/
theorem regAt_eq_cmd {index : Nat} (h : regAt index = some .cmd) : index = 0 := by
  simpa [registerMap] using regAt_mem h

/-- The index of ARG is 0x01 alone. -/
theorem regAt_eq_arg {index : Nat} (h : regAt index = some .arg) : index = 1 := by
  simpa [registerMap] using regAt_mem h

/-- Everything a write to an index other than CMD's can do: write ARG, write one converter operand byte, or nothing. -/
theorem writeIndex_cases {index : Nat} (value : Nat) (s : State) (h : index ≠ 0) :
    (index = 1 ∧ writeIndex index value s = .next (setArg value s)) ∨
      (index ≠ 1 ∧
        (writeIndex index value s = .next (setCvtB0 value s) ∨ writeIndex index value s = .next (setCvtB1 value s) ∨
          writeIndex index value s = .next (setCvtB2 value s) ∨ writeIndex index value s = .next (setCvtB3 value s) ∨
          writeIndex index value s = .next s)) := by
  by_cases h1 : index = 1
  · subst h1
    exact .inl ⟨rfl, rfl⟩
  · refine .inr ⟨h1, ?_⟩
    unfold writeIndex
    cases hr : regAt index with
    | none => simp
    | some r =>
      cases r <;> first
        | exact absurd (regAt_eq_cmd hr) h
        | exact absurd (regAt_eq_arg hr) h1
        | simp [writeReg]

/-- A command that fits 8 bits and is not reserved is executed. -/
theorem issueCommand_of_decode {value : Nat} {i : Instr} (s : State) (hv : value < 256)
    (hd : decode (BitVec.ofNat 8 value) = .command i) : issueCommand value s = exec i s := by
  simp [issueCommand, hv, hd]

/-- Everything a write to CMD can do. -/
theorem issueCommand_cases (value : Nat) (s : State) :
    (256 ≤ value ∧ issueCommand value s = .refused (.overwideCommand value)) ∨
      (value < 256 ∧ ∃ opc, decode (BitVec.ofNat 8 value) = .reserved opc ∧ issueCommand value s = .next s) ∨
      (value < 256 ∧ ∃ i, decode (BitVec.ofNat 8 value) = .command i ∧ issueCommand value s = exec i s) := by
  by_cases hv : value < 256
  · cases hd : decode (BitVec.ofNat 8 value) with
    | command i => exact .inr (.inr ⟨hv, i, rfl, issueCommand_of_decode s hv hd⟩)
    | reserved opc => exact .inr (.inl ⟨hv, opc, rfl, by simp [issueCommand, hv, hd]⟩)
  · exact .inl ⟨by omega, by simp [issueCommand, hv]⟩

/-- Only these opcodes are commands, each of one command (R82). -/
theorem decode_cases (opc : Byte) :
    decode opc = .reserved opc ∨
      ∃ i, decode opc = .command i ∧ opc = encode i := by
  unfold decode
  by_cases h1 : opc = 0x01#8
  · exact .inr ⟨.start, by simp [h1], h1⟩
  by_cases h2 : opc = 0x02#8
  · exact .inr ⟨.read, by simp [h2], h2⟩
  by_cases h3 : opc = 0x10#8
  · exact .inr ⟨.decph, by simp [h3], h3⟩
  by_cases h4 : opc = 0x11#8
  · exact .inr ⟨.decsh, by simp [h4], h4⟩
  by_cases h5 : opc = 0x12#8
  · exact .inr ⟨.decth, by simp [h5], h5⟩
  by_cases h6 : opc = 0x20#8
  · exact .inr ⟨.cvt16, by simp [h6], h6⟩
  by_cases h7 : opc = 0x21#8
  · exact .inr ⟨.cvt32, by simp [h7], h7⟩
  exact .inl (by simp [h1, h2, h3, h4, h5, h6, h7])

/-- Everything a step that answers a next state can have done. -/
inductive StepEffect (s : State) : State → Prop where
  | idle (hp : s.pending = []) : StepEffect s s
  | command (v : Nat) (i : Instr) (rest : List HostAction) (t : State) (hp : s.pending = .write 0x00 v :: rest)
      (hv : v < 256) (hd : decode (BitVec.ofNat 8 v) = .command i) (he : Effect (setPending rest s) i t) : StepEffect s t
  | reserved (v : Nat) (opc : Byte) (rest : List HostAction) (hp : s.pending = .write 0x00 v :: rest) (hv : v < 256)
      (hd : decode (BitVec.ofNat 8 v) = .reserved opc) : StepEffect s (setPending rest s)
  | arg (v : Nat) (rest : List HostAction) (hp : s.pending = .write 0x01 v :: rest) :
      StepEffect s (setArg v (setPending rest s))
  | operand (index v : Nat) (rest : List HostAction) (t : State) (hp : s.pending = .write index v :: rest) (h0 : index ≠ 0)
      (h1 : index ≠ 1)
      (ht : t = setCvtB0 v (setPending rest s) ∨ t = setCvtB1 v (setPending rest s) ∨ t = setCvtB2 v (setPending rest s) ∨
        t = setCvtB3 v (setPending rest s) ∨ t = setPending rest s) : StepEffect s t
  | read (index : Nat) (rest : List HostAction) (hp : s.pending = .read index :: rest) :
      StepEffect s (returnRead (indexValue index s) (setPending rest s))
  | bind (bytes : List Byte) (rest : List HostAction) (hp : s.pending = .bind bytes :: rest) :
      StepEffect s (setIbuf (Memory.ofBytes bytes) (Memory.offsets s.ibuf ++ Memory.offsets (Memory.ofBytes bytes))
        (setPending rest s))
  | store (offset : Nat) (byte : Byte) (rest : List HostAction) (hp : s.pending = .store offset byte :: rest) :
      StepEffect s (setIbuf (Memory.write s.ibuf offset byte) [offset] (setPending rest s))
  | reset (rest : List HostAction) (hp : s.pending = .reset :: rest) :
      StepEffect s (State.resetOf s.addrW s.hostEndian s.ibuf s.draws rest s.lastRead)

/-- Inversion of `step`: a next state is one of the effects above. -/
theorem step_effect {s t : State} (h : step s = .next t) : StepEffect s t := by
  cases hp : s.pending with
  | nil =>
    unfold step serveHost at h
    rw [hp] at h
    cases h
    exact .idle hp
  | cons a rest =>
    rw [step_of_pending hp] at h
    cases a with
    | write index v =>
      by_cases hi : index = 0
      · subst hi
        rw [perform_write_cmd] at h
        rcases issueCommand_cases v (setPending rest s) with ⟨-, e⟩ | ⟨hv, opc, hd, e⟩ | ⟨hv, i, hd, e⟩ <;> rw [e] at h
        · cases h
        · cases h
          exact .reserved v opc rest hp hv hd
        · exact .command v i rest t hp hv hd (exec_effect h)
      · change writeIndex index v _ = _ at h
        rcases writeIndex_cases v (setPending rest s) hi with ⟨h1, e⟩ | ⟨h1, e | e | e | e | e⟩ <;> rw [e] at h <;> cases h
        · subst h1
          exact .arg v rest hp
        all_goals exact .operand index v rest _ hp hi h1 (by simp)
    | read index =>
      cases h
      exact .read index rest hp
    | bind bytes =>
      cases h
      exact .bind bytes rest hp
    | store offset byte =>
      cases h
      exact .store offset byte rest hp
    | reset =>
      cases h
      exact .reset rest hp

/-- The value that issues a command is its opcode. -/
theorem value_eq_opcode {v : Nat} {i : Instr} (hv : v < 256) (hd : decode (BitVec.ofNat 8 v) = .command i) :
    v = (encode i).toNat := by
  rcases decode_cases (BitVec.ofNat 8 v) with e | ⟨j, e, f⟩ <;> rw [hd] at e <;> cases e
  rw [← f, BitVec.toNat_ofNat]
  omega

end Sys2Proof.Machine
end

