-- ==== Sys2Proof/Laws/PerInstr.lean ====
section
/-! SUPPORT. Statements about every command as syntax, one lemma per constructor. -/

/-- A command is well-formed and the word the opcode table gives it is read back as that command (30_encoding.md R82, R85). -/
def Sys2Proof.Laws.TableWord.Statement (i : Sys2Proof.Instr) : Prop :=
  i.wf = true ∧ Sys2Proof.decodeTableWord 8 (Sys2Proof.encode i).toNat = some i

namespace Sys2Proof.Laws.TableWord

theorem start : Statement .start := ⟨rfl, by decide⟩
theorem read : Statement .read := ⟨rfl, by decide⟩
theorem decph : Statement .decph := ⟨rfl, by decide⟩
theorem decsh : Statement .decsh := ⟨rfl, by decide⟩
theorem decth : Statement .decth := ⟨rfl, by decide⟩
theorem cvt16 : Statement .cvt16 := ⟨rfl, by decide⟩
theorem cvt32 : Statement .cvt32 := ⟨rfl, by decide⟩

end Sys2Proof.Laws.TableWord
end

