-- ==== Sys2Proof/Laws/Run.lean ====
section
/-! SUPPORT. A run, step by step, in the machine's own names. -/

namespace Sys2Proof.Machine

/-- The first step of a run of any machine. -/
theorem run_succ (M : Host.Core) (k : Nat) (s : M.State) :
    M.run (k + 1) s =
      match M.step s with
      | .next t => M.run k t
      | .fault r => .fault r
      | .refused r => .refused r := rfl

theorem run_zero (s : State) : Host.Core.run Sys2Proof.core 0 s = .next s := rfl

theorem run_of_next {k : Nat} {s t : State} (h : step s = .next t) :
    Host.Core.run Sys2Proof.core (k + 1) s = Host.Core.run Sys2Proof.core k t :=
  (run_succ Sys2Proof.core k s).trans (by rw [show Sys2Proof.core.step s = .next t from h])

theorem run_of_fault {k : Nat} {s : State} {f : Fault} (h : step s = .fault f) :
    Host.Core.run Sys2Proof.core (k + 1) s = .fault f :=
  (run_succ Sys2Proof.core k s).trans (by rw [show Sys2Proof.core.step s = .fault f from h])

theorem run_of_refused {k : Nat} {s : State} {r : Refusal} (h : step s = .refused r) :
    Host.Core.run Sys2Proof.core (k + 1) s = .refused r :=
  (run_succ Sys2Proof.core k s).trans (by rw [show Sys2Proof.core.step s = .refused r from h])

end Sys2Proof.Machine
end

