-- ==== Sys2Proof/Tests/Slice0.lean ====
section
/-! SUPPORT. Tests: decoding by words written out from 30_encoding.md R82, one or two vectors of 95_test_vectors.md for each
command, and a witness for every statement that has hypotheses. -/

namespace Sys2Proof.Tests

open Sys2Proof Sys2Proof.Machine

/-- A block with ADDR_W = 16 on a little-endian host, this buffer bound, a view of `len` bytes, the cursor at `pos`. -/
def bench (bytes : List Byte) (len pos : Nat) : State :=
  { State.resetOf 16 .little (Memory.ofBytes bytes) 0 [] none with len := len, pos := pos }

/-- The outcome is a next state of which `p` holds. -/
def answers (o : Host.Outcome State Fault Refusal) (p : State → Bool) : Bool :=
  match o with
  | .next t => p t
  | .fault _ => false
  | .refused _ => false

/-- The outcome is this fault. -/
def stopsWith (o : Host.Outcome State Fault Refusal) (f : Fault) : Bool :=
  match o with
  | .next _ => false
  | .fault g => g == f
  | .refused _ => false

/-- The 12 header bytes of the source's scenario A (W3). -/
def scenarioA : List Byte := [0x08#8, 0x00#8, 0x00#8, 0x01#8, 0x00#8, 0x3F#8] ++ [0x5F#8, 0x00#8, 0x00#8, 0x00#8, 0x00#8, 0x00#8]

/-! Decoding: the opcodes of R82, bit by bit. -/

theorem test_decode_start : decode 0b00000001#8 = .command .start := by decide
theorem test_decode_read : decode 0b00000010#8 = .command .read := by decide
theorem test_decode_decph : decode 0b00010000#8 = .command .decph := by decide
theorem test_decode_decsh : decode 0b00010001#8 = .command .decsh := by decide
theorem test_decode_decth : decode 0b00010010#8 = .command .decth := by decide
theorem test_decode_cvt16 : decode 0b00100000#8 = .command .cvt16 := by decide
theorem test_decode_cvt32 : decode 0b00100001#8 = .command .cvt32 := by decide

/-- The edges of the reserved ranges (R84). -/
theorem test_decode_reserved_edges :
    [0x00#8, 0x03#8, 0x0F#8, 0x13#8, 0x1F#8, 0x22#8, 0xFF#8].all (fun b => decode b == .reserved b) = true := by decide

/-- The table's rows, as the table writes them (spec/opcode_table.json). -/
theorem test_table_rows :
    [0x01, 0x02, 0x10, 0x11, 0x12, 0x20, 0x21].map (decodeTableWord 8) =
      [some .start, some .read, some .decph, some .decsh, some .decth, some .cvt16, some .cvt32] := by decide

/-- Every command runs as the first step after reset (R191). -/
theorem test_first_step_after_reset :
    [0x01, 0x02, 0x10, 0x11, 0x12, 0x20, 0x21].all
      (fun w => answers (step (State.reset.withFetchWord 8 w)) (fun t => t.pending == [] && t.pos == 0)) = true := by decide

/-! Well-formed terms: the one check there is refuses a CMD value of more than 8 bits, and the machine refuses it by name. -/

theorem test_wf_refuses_overwide_command : (HostAction.write 0x00 256).wf = false := by decide
theorem test_wf_takes_widest_command : (HostAction.write 0x00 255).wf = true ∧ (HostAction.write 0x01 256).wf = true := by decide
theorem test_overwide_command_refused :
    step { bench [] 0 0 with pending := [.write 0x00 256] } = .refused (.overwideCommand 256) := rfl

/-! START and READ. -/

/-- V-CUR-7. -/
theorem test_start_clears_error :
    answers (exec .start { bench [] 10 4 with arg := 20, err := true, errKind := 1#8, errNeeded := 7, errAvail := 6 })
      (fun t => t.len == 20 && t.pos == 0 && !t.err && t.errKind == 0#8 && t.errNeeded == 0 && statusByte t == 0x00#8) = true := by
  decide

/-- V-CUR-11. -/
theorem test_read_payload :
    answers (exec .read { bench [] 76 12 with arg := 64 })
      (fun t => t.viewBase == 12 && t.viewLen == 64 && t.pos == 76 && atEnd t) = true := by decide

/-- V-CUR-5 with ADDR_W = 16: no wrap. -/
theorem test_read_no_wrap :
    answers (exec .read { bench [] 10 0 with arg := 65535 })
      (fun t => t.err && t.errNeeded == 65535 && t.errAvail == 10 && t.pos == 0) = true := by decide

/-! DECPH, DECSH, DECTH. -/

/-- V-PH-12, the fields read through the register map. -/
theorem test_decph_fields :
    answers (exec .decph (bench [0x08#8, 0x64#8, 0xC1#8, 0x23#8, 0x00#8, 0x45#8] 6 0))
      (fun t => [0x13, 0x14, 0x15, 0x16, 0x17, 0x18, 0x19].map (fun k => indexValue k t) == [100, 1, 0, 0, 291, 3, 69] &&
        statusByte t == 0x06#8) = true := by decide

/-- V-PH-14, a version and a type beside each other. -/
theorem test_decph_version_and_type :
    answers (exec .decph (bench [0xA5#8, 0x5A#8, 0x7F#8, 0x3C#8, 0x00#8, 0x00#8] 6 0))
      (fun t => [0x10, 0x11, 0x13, 0x14, 0x15, 0x16, 0x17, 0x18].map (fun k => indexValue k t) ==
        [0xA55A, 0x7F3C, 1370, 0, 0, 5, 16188, 1]) = true := by decide

/-- V-SHC-2. -/
theorem test_decsh_values :
    answers (exec .decsh (bench [0x12#8, 0x34#8, 0x56#8, 0x78#8, 0x9A#8, 0xBC#8] 6 0))
      (fun t => t.shSeconds == 0x12345678#32 && t.shSubsec == 0x9ABC#16 && statusByte t == 0x0A#8) = true := by decide

/-- V-SHC-5. -/
theorem test_decsh_short :
    answers (exec .decsh (bench scenarioA 11 6))
      (fun t => t.err && t.errNeeded == 6 && t.errAvail == 5 && t.pos == 6 && !t.shValid) = true := by decide

/-- V-TH-2. -/
theorem test_decth_both :
    answers (exec .decth (bench scenarioA 12 0))
      (fun t => t.pos == 12 && t.phW0 == 0x0800#16 && t.shSeconds == 0x5F000000#32 && statusByte t == 0x3E#8) = true := by decide

/-- V-TH-3: the primary bytes are consumed but not latched. -/
theorem test_decth_second_read_fails :
    answers (exec .decth (bench scenarioA 11 0))
      (fun t => t.pos == 6 && t.errNeeded == 6 && t.errAvail == 5 && statusByte t == 0x01#8) = true := by decide

/-- A buffer shorter than LEN (93_implementation_defined.md I5). -/
theorem test_decth_missing_byte : stopsWith (exec .decth (bench (scenarioA.take 11) 12 0)) (.ibufUnreadable .decth) = true := by
  decide

/-! CVT16, CVT32 and the host byte image. -/

/-- V-CVT-8 on a LITTLE host. -/
theorem test_cvt16_little :
    answers (exec .cvt16 { bench [] 0 0 with cvtB0 := 0x12#8, cvtB1 := 0x34#8, cvtB2 := 0xAA#8, cvtB3 := 0xBB#8 })
      (fun t => t.cvtOut == 0x1234#32 && [0, 1, 2, 3].map (hostImage t) == [0x34#8, 0x12#8, 0x00#8, 0x00#8]) = true := by decide

/-- V-CVT-11 on a BIG host, under the error latch. -/
theorem test_cvt16_big_under_error :
    answers (exec .cvt16 { bench [] 0 0 with hostEndian := .big, err := true, cvtB0 := 0x01#8, cvtB1 := 0x02#8 })
      (fun t => t.cvtOut == 258#32 && [0, 1, 2, 3].map (hostImage t) == [0x01#8, 0x02#8, 0x00#8, 0x00#8]) = true := by decide

/-- V-CVT-9 on a LITTLE host. -/
theorem test_cvt32_little :
    answers (exec .cvt32 { bench [] 0 0 with cvtB0 := 0x12#8, cvtB1 := 0x34#8, cvtB2 := 0xAA#8, cvtB3 := 0xBB#8 })
      (fun t => t.cvtOut == 0x1234AABB#32 && [0, 1, 2, 3].map (hostImage t) == [0xBB#8, 0xAA#8, 0x34#8, 0x12#8]) = true := by
  decide

/-- V-CVT-7 on a BIG host. -/
theorem test_cvt32_big :
    answers (exec .cvt32 { bench [] 0 0 with
        hostEndian := .big, cvtB0 := 0x01#8, cvtB1 := 0x02#8, cvtB2 := 0x03#8, cvtB3 := 0x04#8 })
      (fun t => t.cvtOut == 0x01020304#32 && [0, 1, 2, 3].map (hostImage t) == [0x01#8, 0x02#8, 0x03#8, 0x04#8]) = true := by
  decide

/-! The host port. -/

/-- V-REG-4: ARG keeps its low 16 bits. -/
theorem test_write_arg_truncates :
    answers (step { bench [] 0 0 with pending := [.write 0x01 0x12345] }) (fun t => t.arg == 0x2345) = true := by decide

/-- V-REG-1, V-REG-2, V-REG-3: POS ignores a write, CMD and a reserved index read 0. -/
theorem test_register_corners :
    answers (step { bench [] 9 1 with pending := [.write 0x06 5] }) (fun t => t.pos == 1) = true ∧
      indexValue 0x00 (bench [] 9 1) = 0 ∧ indexValue 0x0B (bench [] 9 1) = 0 ∧ indexValue 0x08 (bench [] 9 1) = 8 := by decide

/-- R190: reset clears CVT_VALID and does not change IBUF. -/
theorem test_reset_action :
    answers (step { bench scenarioA 12 6 with cvtValid := true, err := true, pending := [.reset] })
      (fun t => statusByte t == 0x02#8 && t.ibuf == Memory.ofBytes scenarioA && t.addrW == 16) = true := by decide

/-- A byte the host has changed during the pass is a free value, its neighbour is not (93_implementation_defined.md I4). -/
theorem test_changed_byte_is_free :
    answers (step { bench scenarioA 12 0 with pending := [.store 3 0x55#8] })
      (fun t => t.changed == [3] && commandByte t 2 == some 0x00#8) = true := by decide

/-! Witnesses: for each statement with hypotheses, concrete states and operands that meet them together. -/

theorem witness_DecodeAndEncodeAgree : Instr.cvt32.wf = true ∧ decode 0x21#8 = .command .cvt32 := by decide

theorem witness_ReservedOpcodesChangeNoState :
    [0x00, 0x03, 0x0F, 0x13, 0x1F, 0x22, 0xFF].all (fun v =>
      decide (v = 0x00 ∨ (0x03 ≤ v ∧ v ≤ 0x0F) ∨ (0x13 ≤ v ∧ v ≤ 0x1F) ∨ (0x22 ≤ v ∧ v ≤ 0xFF)) &&
        decide ({ bench [] 0 0 with pending := [.write 0x00 v] }.pending = .write 0x00 v :: [])) = true := by decide

theorem witness_StepRunsTheDecodedCommand :
    { bench [] 0 0 with pending := [.write 0x00 0x12] }.pending = .write 0x00 0x12 :: [] ∧ 0x12 < 256 ∧
      decode (BitVec.ofNat 8 0x12) = .command .decth ∧ (bench [] 0 0).pending = [] := by decide

/-- The three cases of READ; the middle one is short by one byte, the last takes exactly what remains. -/
theorem witness_ReadConsumesOrRaises :
    { bench [] 10 4 with err := true }.err = true ∧
      ({ bench [] 10 4 with arg := 7 }.err = false ∧ (bench [] 10 4).len - (bench [] 10 4).pos < 7) ∧
      ({ bench [] 10 4 with arg := 6 }.err = false ∧ 6 ≤ (bench [] 10 4).len - (bench [] 10 4).pos) := by decide

theorem witness_ReadViewIsTheNextBytes :
    { bench scenarioA 12 6 with arg := 6 }.err = false ∧ 6 ≤ (bench scenarioA 12 6).len - (bench scenarioA 12 6).pos := by decide

theorem witness_CursorReadIsAllOrNothing :
    (bench [] 10 4).len - (bench [] 10 4).pos < 7 ∧ 6 ≤ (bench [] 10 4).len - (bench [] 10 4).pos ∧
      (bench [] 10 4).pos ≤ (bench [] 10 4).len := by decide

/-- DECPH and DECSH: latched, one byte short, exactly six bytes. -/
theorem witness_DecphLatchesThePrimaryHeader :
    { bench scenarioA 6 0 with err := true }.err = true ∧ (bench scenarioA 6 0).err = false ∧
      (bench scenarioA 5 0).len - (bench scenarioA 5 0).pos < 6 ∧ 6 ≤ (bench scenarioA 6 0).len - (bench scenarioA 6 0).pos ∧
      commandByte (bench scenarioA 6 0) 0 = some 0x08#8 ∧ commandByte (bench scenarioA 6 0) 1 = some 0x00#8 ∧
      commandByte (bench scenarioA 6 0) 2 = some 0x00#8 ∧ commandByte (bench scenarioA 6 0) 3 = some 0x01#8 ∧
      commandByte (bench scenarioA 6 0) 4 = some 0x00#8 ∧ commandByte (bench scenarioA 6 0) 5 = some 0x3F#8 := by decide

theorem witness_DecshLatchesTheSecondaryHeader :
    { bench scenarioA 12 6 with err := true }.err = true ∧ (bench scenarioA 12 6).err = false ∧
      (bench scenarioA 11 6).len - (bench scenarioA 11 6).pos < 6 ∧
      6 ≤ (bench scenarioA 12 6).len - (bench scenarioA 12 6).pos ∧
      commandByte (bench scenarioA 12 6) 6 = some 0x5F#8 ∧ commandByte (bench scenarioA 12 6) 7 = some 0x00#8 ∧
      commandByte (bench scenarioA 12 6) 8 = some 0x00#8 ∧ commandByte (bench scenarioA 12 6) 9 = some 0x00#8 ∧
      commandByte (bench scenarioA 12 6) 10 = some 0x00#8 ∧ commandByte (bench scenarioA 12 6) 11 = some 0x00#8 := by decide

/-- DECTH with the flag clear and exactly six bytes left. -/
theorem witness_DecthLatchesTheTelemetryHeader_alone :
    (bench (0x00#8 :: scenarioA.tail) 6 0).err = false ∧ 6 ≤ (bench (0x00#8 :: scenarioA.tail) 6 0).len - 0 ∧
      (List.range 6).map (commandByte (bench (0x00#8 :: scenarioA.tail) 6 0)) =
        [some 0x00#8, some 0x00#8, some 0x00#8, some 0x01#8, some 0x00#8, some 0x3F#8] ∧
      (0x00#8).getLsbD 3 = false := by decide

/-- DECTH with the flag set: eleven bytes are too few, twelve are enough, and all twelve are readable. -/
theorem witness_DecthLatchesTheTelemetryHeader_both :
    (bench scenarioA 12 0).err = false ∧ (bench scenarioA 11 0).len - 0 < 12 ∧ 12 ≤ (bench scenarioA 12 0).len - 0 ∧
      (0x08#8).getLsbD 3 = true ∧
      (List.range 6).map (commandByte (bench scenarioA 12 0)) =
        [some 0x08#8, some 0x00#8, some 0x00#8, some 0x01#8, some 0x00#8, some 0x3F#8] ∧
      (List.range 6).map (fun k => commandByte { bench scenarioA 12 0 with draws := 2 } (6 + k)) =
        [some 0x5F#8, some 0x00#8, some 0x00#8, some 0x00#8, some 0x00#8, some 0x00#8] := by decide

theorem witness_HeaderByteIsTheBufferByte :
    Memory.read (bench scenarioA 12 0).ibuf 3 = some 0x01#8 ∧ 3 ∉ (bench scenarioA 12 0).changed ∧
      3 ∈ { bench scenarioA 12 0 with changed := [3] }.changed ∧ Memory.read (bench scenarioA 12 0).ibuf 12 = none := by decide

theorem witness_HeaderCommandsFaultOnAMissingByte :
    ((bench (scenarioA.take 5) 6 0).err = false ∧ 6 ≤ (bench (scenarioA.take 5) 6 0).len - 0 ∧
      Memory.read (bench (scenarioA.take 5) 6 0).ibuf 5 = none) ∧
    (12 ≤ (bench (scenarioA.take 11) 12 0).len - 0 ∧ commandByte (bench (scenarioA.take 11) 12 0) 0 = some 0x08#8 ∧
      (List.range 6).all (fun k => (Memory.read (bench (scenarioA.take 11) 12 0).ibuf k).isSome) = true ∧
      Memory.read (bench (scenarioA.take 11) 12 0).ibuf 11 = none) := by decide

theorem witness_HeaderFieldsAreBigEndian :
    (bench scenarioA 6 0).err = false ∧ 6 ≤ (bench scenarioA 6 0).len - (bench scenarioA 6 0).pos ∧
      (bench scenarioA 6 0).changed = [] ∧
      ∀ k : Fin 6, Memory.read (bench scenarioA 6 0).ibuf ((bench scenarioA 6 0).pos + k.val) =
        some (scenarioA[k.val]'(by have := k.isLt; simp [scenarioA]; omega)) := by decide

/-- Both values of the flag: twelve bytes with it, six without. -/
theorem witness_TelemetryHeaderRoundTrip :
    ((bench scenarioA 12 0).err = false ∧ (bench scenarioA 12 0).changed = [] ∧
      (if true then 12 else 6) ≤ (bench scenarioA 12 0).len - (bench scenarioA 12 0).pos ∧
      0x0800#16 = 0#3 ++ 0#1 ++ BitVec.ofBool true ++ 0#11 ∧ 0x0001#16 = 0#2 ++ 1#14 ∧
      (∀ k (hk : k < 6), Memory.read (bench scenarioA 12 0).ibuf (0 + k) =
        some ([(0x0800#16).extractLsb' 8 8, (0x0800#16).extractLsb' 0 8, (0x0001#16).extractLsb' 8 8,
          (0x0001#16).extractLsb' 0 8, (0x003F#16).extractLsb' 8 8, (0x003F#16).extractLsb' 0 8][k])) ∧
      (∀ k (hk : k < 6), Memory.read (bench scenarioA 12 0).ibuf (0 + 6 + k) =
        some ([(0x5F000000#32).extractLsb' 24 8, (0x5F000000#32).extractLsb' 16 8, (0x5F000000#32).extractLsb' 8 8,
          (0x5F000000#32).extractLsb' 0 8, (0#16).extractLsb' 8 8, (0#16).extractLsb' 0 8][k]))) ∧
    ((bench (0x00#8 :: scenarioA.tail) 6 0).err = false ∧ (bench (0x00#8 :: scenarioA.tail) 6 0).changed = [] ∧
      (if false then 12 else 6) ≤ (bench (0x00#8 :: scenarioA.tail) 6 0).len - 0 ∧
      0x0000#16 = 0#3 ++ 0#1 ++ BitVec.ofBool false ++ 0#11 ∧
      ∀ k (hk : k < 6), Memory.read (bench (0x00#8 :: scenarioA.tail) 6 0).ibuf (0 + k) =
        some ([(0x0000#16).extractLsb' 8 8, (0x0000#16).extractLsb' 0 8, (0x0001#16).extractLsb' 8 8,
          (0x0001#16).extractLsb' 0 8, (0x003F#16).extractLsb' 8 8, (0x003F#16).extractLsb' 0 8][k])) := by decide

theorem witness_HostImageFollowsWidthAndByteOrder :
    [(false, Endian.big), (false, .little), (true, .big), (true, .little)].all (fun c =>
      let s := { bench [] 0 0 with cvtValid := true, cvtW32 := c.1, hostEndian := c.2 }
      s.cvtValid && s.cvtW32 == c.1 && s.hostEndian == c.2) = true := by decide

theorem witness_ImageIsTheWireBytesOrTheirSwap :
    { bench [] 0 0 with hostEndian := .big }.hostEndian = .big ∧ (bench [] 0 0).hostEndian = .little := by decide

theorem witness_ConversionHasAnInverse :
    ({ bench [] 0 0 with cvtB0 := 0x01#8, cvtB1 := 0x02#8 }.cvtB0 = (0x0102#16).extractLsb' 8 8 ∧
      { bench [] 0 0 with cvtB0 := 0x01#8, cvtB1 := 0x02#8 }.cvtB1 = (0x0102#16).extractLsb' 0 8) ∧
    ((bench [] 0 0).cvtB0 = (0#32).extractLsb' 24 8 ∧ (bench [] 0 0).cvtB1 = (0#32).extractLsb' 16 8 ∧
      (bench [] 0 0).cvtB2 = (0#32).extractLsb' 8 8 ∧ (bench [] 0 0).cvtB3 = (0#32).extractLsb' 0 8) ∧
    { bench [] 0 0 with hostEndian := .big }.hostEndian = .big := by decide

/-- The causes of InsufficientData: READ one byte short, DECPH with five bytes, DECTH at its second read. -/
theorem witness_InsufficientDataCauses :
    (∃ t, exec .read { bench [] 10 4 with arg := 7 } = .next t ∧ t.err = true) ∧
    (∃ t, exec .decph (bench scenarioA 5 0) = .next t ∧ t.err = true) ∧
    (∃ t, exec .decth (bench scenarioA 11 0) = .next t ∧ t.err = true) ∧
    (∃ t, exec .decth (bench scenarioA 12 0) = .next t ∧ t.err = false) :=
  ⟨⟨_, rfl, rfl⟩, ⟨_, rfl, rfl⟩, ⟨_, rfl, rfl⟩, ⟨_, rfl, rfl⟩⟩

theorem witness_FailureChangesOnlyTheErrorRecord :
    (∃ t, exec .read { bench [] 10 4 with arg := 7 } = .next t ∧ { bench [] 10 4 with arg := 7 }.err = false ∧ t.err = true ∧
      { bench [] 10 4 with arg := 7 }.pos ≤ { bench [] 10 4 with arg := 7 }.len) ∧
    (∃ t, exec .decth (bench scenarioA 11 0) = .next t ∧ (bench scenarioA 11 0).err = false ∧ t.err = true ∧ t.pos = 6) :=
  ⟨⟨_, rfl, rfl, rfl, by decide⟩, ⟨_, rfl, rfl, rfl, rfl⟩⟩

theorem witness_ErrorLatchIsSticky :
    { bench scenarioA 12 0 with err := true, pending := [.write 0x00 0x80] }.err = true ∧ 0x80 < 256 ∧
      decode (BitVec.ofNat 8 0x80) = .reserved 0x80#8 := by decide

theorem witness_ErrorStateLeftOnlyByStartOrReset :
    (∃ t, step { bench [] 0 0 with err := true, pending := [.write 0x00 0x01] } = .next t ∧ t.err = false) ∧
      (∃ t, step { bench [] 0 0 with err := true, pending := [.reset] } = .next t ∧ t.err = false) :=
  ⟨⟨_, rfl, rfl⟩, ⟨_, rfl, rfl⟩⟩

theorem witness_CvtValidClearedOnlyByReset :
    ∃ t, step { bench [] 0 0 with cvtValid := true, pending := [.reset] } = .next t ∧ t.cvtValid = false := ⟨_, rfl, rfl⟩

/-- For the frames of commands: each command answers a next state somewhere. -/
theorem witness_CommandsWriteOnlyTheirRegisters :
    (∃ t, exec .start (bench scenarioA 12 0) = .next t) ∧ (∃ t, exec .read (bench scenarioA 12 0) = .next t) ∧
      (∃ t, exec .decph (bench scenarioA 12 0) = .next t) ∧ (∃ t, exec .decsh (bench scenarioA 12 0) = .next t) ∧
      (∃ t, exec .decth (bench scenarioA 12 0) = .next t) ∧ (∃ t, exec .cvt16 (bench scenarioA 12 0) = .next t) ∧
      (∃ t, exec .cvt32 (bench scenarioA 12 0) = .next t) :=
  ⟨⟨_, rfl⟩, ⟨_, rfl⟩, ⟨_, rfl⟩, ⟨_, rfl⟩, ⟨_, rfl⟩, ⟨_, rfl⟩, ⟨_, rfl⟩⟩

theorem witness_CommandsNeverWriteIbuf : ∃ t, exec .decth (bench scenarioA 12 0) = .next t := ⟨_, rfl⟩

/-- READ to the end, DECPH, DECTH of 12 and of 6 bytes, a failing DECTH. -/
theorem witness_ConsumedByteCount :
    (∃ t, exec .read { bench [] 10 4 with arg := 6 } = .next t ∧ t.err = false) ∧
    (∃ t, exec .decph (bench scenarioA 12 0) = .next t ∧ t.err = false) ∧
    (∃ t, exec .decth (bench scenarioA 12 0) = .next t ∧ t.err = false ∧ t.thSec = true) ∧
    (∃ t, exec .decth (bench (0x00#8 :: scenarioA.tail) 6 0) = .next t ∧ t.err = false ∧ t.thSec = false) ∧
    (∃ t, exec .decth (bench scenarioA 11 0) = .next t ∧ t.err = true) :=
  ⟨⟨_, rfl, rfl⟩, ⟨_, rfl, rfl⟩, ⟨_, rfl, rfl, rfl⟩, ⟨_, rfl, rfl, rfl⟩, ⟨_, rfl, rfl⟩⟩

theorem witness_PosDecreasesOnlyAtStartOrReset :
    (∃ t, step { bench [] 9 5 with pending := [.write 0x00 0x01] } = .next t ∧ t.pos < 5) ∧
      (∃ t, step { bench [] 9 5 with pending := [.reset] } = .next t ∧ t.pos < 5) :=
  ⟨⟨_, rfl, by decide⟩, ⟨_, rfl, by decide⟩⟩

/-- Two buffers that agree from POS to LEN and differ on both sides, a next state and a fault. -/
theorem witness_BytesOutsideTheViewAreInvisible :
    (∀ a, (bench scenarioA 12 6).pos ≤ a → a < (bench scenarioA 12 6).len →
      Memory.read (Memory.write (Memory.write (Memory.ofBytes scenarioA) 5 0xFF#8) 12 0xFF#8) a =
        Memory.read (bench scenarioA 12 6).ibuf a) ∧
    (∃ t, exec .decsh (bench scenarioA 12 6) = .next t) ∧ (∃ f, exec .decsh (bench scenarioA 13 7) = .fault f) := by
  refine ⟨?_, ⟨_, rfl⟩, ⟨_, rfl⟩⟩
  intro a h1 h2
  rw [Memory.read_write_other _ _ _ _ (by change a < 12 at h2; omega), Memory.read_write_other _ _ _ _ (by change 6 ≤ a at h1; omega)]
  rfl

/-- A state that meets the invariant: the bench with its view, and an action pending. -/
theorem bench_inv : ({ bench scenarioA 12 6 with pending := [.read 0x38] } : State).Inv where
  addrW_ge := by decide
  pos_le := by decide
  len_fits := by decide
  arg_fits := by decide
  errNeeded_fits := by decide
  view_consumed := by decide
  clear_record := fun _ => by decide
  short_record := fun h => by cases h
  thSec_th := fun h => by cases h
  th_ph := fun h => by cases h
  th_shf := fun h => by cases h
  th_sh := fun h => by cases h
  cvt_w32 := fun h => by cases h
  cvt_narrow := fun h => by cases h
  ibuf_wf := by decide
  changed_wf := by decide

theorem witness_RegisterReadsFollowTheMap :
    ({ bench scenarioA 12 6 with pending := [.read 0x38] } : State).Inv ∧
      { bench scenarioA 12 6 with pending := [.read 0x38] }.pending = .read 0x38 :: [] := ⟨bench_inv, rfl⟩

theorem witness_ReservedIndexesReadZeroAndIgnoreWrites :
    [0x0B, 0x0F, 0x1A, 0x1F, 0x22, 0x2F, 0x39].all (fun i =>
      decide ((0x0B ≤ i ∧ i ≤ 0x0F) ∨ (0x1A ≤ i ∧ i ≤ 0x1F) ∨ (0x22 ≤ i ∧ i ≤ 0x2F) ∨ 0x39 ≤ i) &&
        decide ({ bench [] 0 0 with pending := [.read i] }.pending = .read i :: []) &&
        decide ({ bench [] 0 0 with pending := [.write i 7] }.pending = .write i 7 :: [])) = true := by decide

theorem witness_RegisterWritesFollowTheAccessRules :
    [0x02, 0x0A, 0x10, 0x19, 0x20, 0x21, 0x34, 0x38].all (fun i =>
      decide ((0x02 ≤ i ∧ i ≤ 0x0A) ∨ (0x10 ≤ i ∧ i ≤ 0x19) ∨ (0x20 ≤ i ∧ i ≤ 0x21) ∨ (0x34 ≤ i ∧ i ≤ 0x38)) &&
        decide ({ bench [] 0 0 with pending := [.write i 7] }.pending = .write i 7 :: [])) = true ∧
    [0x01, 0x30, 0x31, 0x32, 0x33].all (fun i =>
      decide ({ bench [] 0 0 with pending := [.write i 256] }.pending = .write i 256 :: []) && decide (i ≠ 0x00)) = true ∧
    { bench [] 0 0 with pending := [.read 0x39] }.pending = .read 0x39 :: [] := by decide

theorem witness_HostBufferChangesAreMarked :
    { bench scenarioA 12 0 with pending := [.bind [0x00#8]] }.pending = .bind [0x00#8] :: [] ∧
      { bench scenarioA 12 0 with pending := [.store 11 0x01#8] }.pending = .store 11 0x01#8 :: [] := by decide

theorem witness_ResetLeavesTheTableValues :
    { bench scenarioA 12 6 with pending := [.reset] }.pending = .reset :: [] ∧
      ∃ t, step { bench scenarioA 12 6 with pending := [.reset] } = .next t := ⟨rfl, ⟨_, rfl⟩⟩

/-- Both ways to a state right after reset, a byte count and a state whose ARG is 0. -/
theorem witness_CommandsRightAfterReset :
    (∃ r, step { bench scenarioA 12 6 with pending := [.reset] } = .next r) ∧ 0 < 1 ∧ State.reset.arg = 0 :=
  ⟨⟨_, rfl⟩, by decide, rfl⟩

theorem witness_StepKeepsTheInvariant :
    ({ bench scenarioA 12 6 with pending := [.read 0x38] } : State).Inv ∧
      ∃ t, step { bench scenarioA 12 6 with pending := [.read 0x38] } = .next t := ⟨bench_inv, ⟨_, rfl⟩⟩

/-- A run that goes on, one that faults and one that is refused. -/
theorem witness_HostByteOrderIsInvisibleToCommands :
    (∃ t, Host.Core.run Sys2Proof.core 1 { bench [] 0 0 with pending := [.read 0x35] } = .next t) ∧
    (∃ f, Host.Core.run Sys2Proof.core 1 { bench [] 6 0 with pending := [.write 0x00 0x10] } = .fault f) ∧
    (∃ r, Host.Core.run Sys2Proof.core 1 { bench [] 0 0 with pending := [.write 0x00 256] } = .refused r) :=
  ⟨⟨_, rfl⟩, ⟨_, rfl⟩, ⟨_, rfl⟩⟩

theorem witness_StepStopsOnlyOnABrokenDuty :
    (∃ f, step { bench [] 6 0 with pending := [.write 0x00 0x10] } = .fault f) ∧
      (∃ r, step { bench [] 0 0 with pending := [.write 0x00 256] } = .refused r) := ⟨⟨_, rfl⟩, ⟨_, rfl⟩⟩

/-- A host that binds a buffer, starts a pass over all of it, decodes a header and converts. -/
theorem witness_DutifulHostRunsOn :
    ({ bench [] 0 0 with pending := [.bind [0x08#8, 0x00#8], .write 0x01 2, .write 0x00 0x01, .write 0x00 0x12] } :
      State).Dutiful := by
  refine ⟨by decide, ⟨?_, by decide, fun _ => trivial, trivial⟩⟩
  intro a ha
  have h : a = 0 ∨ a = 1 := by
    change a < 2 at ha
    omega
  rcases h with rfl | rfl <;> decide

end Sys2Proof.Tests
end

section
/-! PROOFS. The invariant: each named update of the state keeps it under the condition stated, so every
effect of a command and of a step does, and the state after reset has it. -/

namespace Sys2Proof.Machine

namespace State.Inv

variable {s : State}

/-! What the widths of the registers allow. -/

theorem errAvail_fits (h : s.Inv) : s.errAvail < 2 ^ s.addrW := by
  have hlen := h.len_fits
  cases he : s.err with
  | true => obtain ⟨-, havail, -⟩ := h.short_record he; omega
  | false => obtain ⟨-, -, havail⟩ := h.clear_record he; omega

/-- ADDR_W bits hold the byte count of a header read (R5). -/
theorem six_fits (h : s.Inv) : 6 < 2 ^ s.addrW :=
  Nat.lt_of_lt_of_le (by decide) (Nat.pow_le_pow_right (by decide) h.addrW_ge)

/-! The shared operations. -/

theorem raise {n : Nat} (h : s.Inv) (hn : n < 2 ^ s.addrW) (hr : remaining s < n) :
    (raiseInsufficientData n (remaining s) s).Inv :=
  { h with
    errNeeded_fits := hn
    clear_record := fun he => by cases he
    short_record := fun _ => ⟨rfl, rfl, hr⟩ }

theorem advance {n : Nat} (h : s.Inv) (he : s.err = false) (hr : n ≤ remaining s) : (advance n s).Inv :=
  { h with
    pos_le := by
      have hpos := h.pos_le
      rw [remaining_eq] at hr
      rw [advance_pos, advance_len]
      omega
    view_consumed := Nat.le_add_right_of_le h.view_consumed
    short_record := fun he' => by simp [he] at he' }

theorem setView {base n : Nat} (h : s.Inv) (hv : base + n ≤ s.pos) : (setView base n s).Inv :=
  { h with view_consumed := hv }

theorem countDraw (h : s.Inv) : (countDraw s).Inv := { h with }

theorem latchSecondary (h : s.Inv) (v : SecondaryValues) : (latchSecondary v s).Inv := { h with }

/-- A primary header may be latched with the telemetry flags cleared. -/
theorem latchPrimary_markPrimary (h : s.Inv) (w : PrimaryWords) : (markPrimary (latchPrimary w s)).Inv :=
  { h with
    thSec_th := fun hs => by cases hs
    th_ph := fun _ => rfl
    th_shf := fun ht => by cases ht
    th_sh := fun ht => by cases ht }

theorem markSecondary (h : s.Inv) : (markSecondary s).Inv :=
  { h with
    thSec_th := fun hs => by cases hs
    th_ph := fun ht => by cases ht
    th_shf := fun ht => by cases ht
    th_sh := fun ht => by cases ht }

/-- A telemetry header may be latched with the flag its own first word has (R34). -/
theorem latchPrimary_markTelemetry {shf : Bool} {w : PrimaryWords} (h : s.Inv) (hw : hasSecondaryHeader w.w0 = shf) :
    (markTelemetry shf (latchPrimary w s)).Inv :=
  { h with
    thSec_th := fun _ => rfl
    th_ph := fun _ => rfl
    th_shf := fun _ => hw.symm
    th_sh := fun _ => rfl }

theorem latchConversion {v : Word32} {w32 : Bool} (h : s.Inv) (hv : w32 = false → v.toNat < 2 ^ 16) :
    (latchConversion v w32 s).Inv :=
  { h with
    cvt_w32 := fun _ => rfl
    cvt_narrow := fun _ => hv }

/-- START binds ARG bytes and clears what depends on the cursor (R100). -/
theorem bindView_clear (h : s.Inv) : (clearHeaderFlags (clearError (bindView s.arg s))).Inv :=
  { h with
    pos_le := Nat.zero_le _
    len_fits := h.arg_fits
    errNeeded_fits := Nat.two_pow_pos _
    view_consumed := Nat.le_refl 0
    clear_record := fun _ => ⟨rfl, rfl, rfl⟩
    short_record := fun he => by cases he
    thSec_th := fun hs => by cases hs
    th_ph := fun ht => by cases ht
    th_shf := fun ht => by cases ht
    th_sh := fun ht => by cases ht
    changed_wf := rfl }

/-! The host port. -/

theorem setPending (h : s.Inv) (rest : List HostAction) : (setPending rest s).Inv := { h with }

theorem returnRead (h : s.Inv) (value : Nat) : (returnRead value s).Inv := { h with }

theorem setArg (h : s.Inv) (value : Nat) : (setArg value s).Inv :=
  { h with arg_fits := Nat.mod_lt _ (Nat.two_pow_pos _) }

theorem setCvtB0 (h : s.Inv) (value : Nat) : (setCvtB0 value s).Inv := { h with }

theorem setCvtB1 (h : s.Inv) (value : Nat) : (setCvtB1 value s).Inv := { h with }

theorem setCvtB2 (h : s.Inv) (value : Nat) : (setCvtB2 value s).Inv := { h with }

theorem setCvtB3 (h : s.Inv) (value : Nat) : (setCvtB3 value s).Inv := { h with }

theorem setIbuf {m : Memory} (h : s.Inv) (hm : Memory.wf m = true) (offsets : List Nat) : (setIbuf m offsets s).Inv :=
  { h with
    ibuf_wf := hm
    changed_wf := offsetsRise_markChanged _ _ _ _ _ h.changed_wf }

end State.Inv

/-- A reset leaves the invariant, whatever the parameters and the free values are (R42). -/
theorem resetOf_inv {addrW : Nat} {m : Memory} (hw : 8 ≤ addrW) (hm : Memory.wf m = true) (e : Endian) (draw : Nat)
    (pending : List HostAction) (r : Option Nat) : (State.resetOf addrW e m draw pending r).Inv where
  addrW_ge := hw
  pos_le := Nat.le_refl 0
  len_fits := Nat.two_pow_pos _
  arg_fits := Nat.two_pow_pos _
  errNeeded_fits := Nat.two_pow_pos _
  view_consumed := Nat.le_refl 0
  clear_record := fun _ => ⟨rfl, rfl, rfl⟩
  short_record := fun he => by cases he
  thSec_th := fun hs => by cases hs
  th_ph := fun ht => by cases ht
  th_shf := fun ht => by cases ht
  th_sh := fun ht => by cases ht
  cvt_w32 := fun h32 => by cases h32
  cvt_narrow := fun hc => by cases hc
  ibuf_wf := hm
  changed_wf := rfl

/-- A 16-bit operand fits 16 bits. -/
theorem cvt16Value_lt (s : State) : (cvt16Value s).toNat < 2 ^ 16 := by
  have h0 := s.cvtB0.isLt
  have h1 := s.cvtB1.isLt
  rw [cvt16Value_toNat]
  omega

/-- After the first read of a header the view has the bytes that are left of it. -/
theorem remaining_countDraw_advance (n : Nat) (s : State) :
    remaining (countDraw (advance n s)) = remaining s - n := by
  simp only [remaining_eq, countDraw_len, countDraw_pos, advance_len, advance_pos]
  omega

/-- Every command that completes keeps the invariant. -/
theorem Effect.inv {s t : State} {i : Instr} (he : Effect s i t) (h : s.Inv) : t.Inv := by
  have fetched (herr : s.err = false) (hr : 6 ≤ remaining s) : (countDraw (advance 6 s)).Inv :=
    (h.advance herr hr).countDraw
  cases he with
  | start => exact h.bindView_clear
  | cvt16 => exact h.latchConversion fun _ => cvt16Value_lt s
  | cvt32 => exact h.latchConversion fun hw => by cases hw
  | latched => exact h
  | readShort _ hr => exact h.raise h.arg_fits hr
  | readDone herr hr => exact (h.advance herr hr).setView (Nat.le_refl _)
  | headerShort _ _ _ hr => exact h.raise h.six_fits hr
  | decphDone p herr hr => exact (fetched herr hr).latchPrimary_markPrimary _
  | decshDone p herr hr => exact ((fetched herr hr).latchSecondary _).markSecondary
  | decthAlone p herr hr _ hf =>
    exact (fetched herr hr).latchPrimary_markTelemetry ((hasSecondaryHeader_be16 _ _).trans hf)
  | decthShort p herr hr _ _ hr' =>
    rw [← remaining_countDraw_advance]
    exact (fetched herr hr).raise h.six_fits (by rw [remaining_countDraw_advance]; omega)
  | decthBoth p q herr hr _ hf _ =>
    have hr' : 6 ≤ remaining (countDraw (advance 6 s)) := by rw [remaining_countDraw_advance]; omega
    have both := (((fetched herr (by omega)).advance herr hr').countDraw).latchSecondary (decodeSecondary q)
    exact both.latchPrimary_markTelemetry (w := decodePrimary p) ((hasSecondaryHeader_be16 _ _).trans hf)

/-- Every step that completes keeps the invariant. -/
theorem StepEffect.inv {s t : State} (he : StepEffect s t) (h : s.Inv) : t.Inv := by
  cases he with
  | idle => exact h
  | command _ _ rest _ _ _ _ he => exact he.inv (h.setPending rest)
  | reserved _ _ rest => exact h.setPending rest
  | arg v rest => exact (h.setPending rest).setArg v
  | operand _ v rest _ _ _ _ ht =>
    have hp := h.setPending rest
    rcases ht with rfl | rfl | rfl | rfl | rfl
    · exact hp.setCvtB0 v
    · exact hp.setCvtB1 v
    · exact hp.setCvtB2 v
    · exact hp.setCvtB3 v
    · exact hp
  | read _ rest => exact (h.setPending rest).returnRead _
  | bind bytes rest => exact (h.setPending rest).setIbuf (Memory.wf_ofBytes bytes) _
  | store offset byte rest => exact (h.setPending rest).setIbuf (Memory.wf_write offset byte h.ibuf_wf) _
  | reset => exact resetOf_inv h.addrW_ge h.ibuf_wf _ _ _ _

/-- Settles O41: a step has one of finitely many effects, and each keeps the invariant. -/
theorem stepKeepsTheInvariant : Obligations.StepKeepsTheInvariant :=
  fun _ _ hinv hstep => (step_effect hstep).inv hinv

/-- Settles O40: the reset constants give a legal ADDR_W, and no buffer is bound. -/
theorem resetMeetsTheInvariant : Obligations.ResetMeetsTheInvariant :=
  resetOf_inv (Nat.le_add_right 8 _) Memory.wf_nil _ _ _ _

end Sys2Proof.Machine
end

section
/-! PROOFS. The frame of the commands, register group by register group, and the steps that clear CVT_VALID or lower POS. -/

namespace Sys2Proof.Machine

namespace Effect

variable {s t : State} {i : Instr}

/-- No command writes what the host writes, a parameter, IBUF or the model's host side (R26, R32, R61). -/
theorem host_side_kept (he : Effect s i t) :
    t.arg = s.arg ∧ t.cvtB0 = s.cvtB0 ∧ t.cvtB1 = s.cvtB1 ∧ t.cvtB2 = s.cvtB2 ∧ t.cvtB3 = s.cvtB3 ∧
      t.addrW = s.addrW ∧ t.hostEndian = s.hostEndian ∧ t.ibuf = s.ibuf ∧ t.pending = s.pending ∧
      t.lastRead = s.lastRead := by
  cases he <;> exact ⟨rfl, rfl, rfl, rfl, rfl, rfl, rfl, rfl, rfl, rfl⟩

/-- LEN is START's (R22). -/
theorem len_kept (he : Effect s i t) (hi : i ≠ .start) : t.len = s.len ∧ t.changed = s.changed := by
  cases he with
  | start => exact absurd rfl hi
  | _ => exact ⟨rfl, rfl⟩

/-- The view is START's and READ's (R24). -/
theorem view_kept (he : Effect s i t) (hstart : i ≠ .start) (hread : i ≠ .read) :
    t.viewBase = s.viewBase ∧ t.viewLen = s.viewLen := by
  cases he with
  | start => exact absurd rfl hstart
  | readDone => exact absurd rfl hread
  | _ => exact ⟨rfl, rfl⟩

/-- The primary header is DECPH's and DECTH's; START clears its flag (R29). -/
theorem primary_kept (he : Effect s i t) (hph : i ≠ .decph) (hth : i ≠ .decth) :
    t.phW0 = s.phW0 ∧ t.phW1 = s.phW1 ∧ t.phW2 = s.phW2 ∧ (i ≠ .start → t.phValid = s.phValid) := by
  cases he with
  | start => exact ⟨rfl, rfl, rfl, fun hi => absurd rfl hi⟩
  | decphDone => exact absurd rfl hph
  | decthAlone | decthBoth => exact absurd rfl hth
  | _ => exact ⟨rfl, rfl, rfl, fun _ => rfl⟩

/-- The secondary header is DECSH's and DECTH's; START clears its flag (R31). -/
theorem secondary_kept (he : Effect s i t) (hsh : i ≠ .decsh) (hth : i ≠ .decth) :
    t.shSeconds = s.shSeconds ∧ t.shSubsec = s.shSubsec ∧ (i ≠ .start → t.shValid = s.shValid) := by
  cases he with
  | start => exact ⟨rfl, rfl, fun hi => absurd rfl hi⟩
  | decshDone => exact absurd rfl hsh
  | decthAlone | decthBoth => exact absurd rfl hth
  | _ => exact ⟨rfl, rfl, fun _ => rfl⟩

/-- READ leaves the telemetry flags (R101). -/
theorem telemetry_flags_kept_by_read (he : Effect s .read t) : t.thValid = s.thValid ∧ t.thSec = s.thSec := by
  cases he <;> exact ⟨rfl, rfl⟩

/-- The conversion result is CVT16's and CVT32's (R33). -/
theorem conversion_kept (he : Effect s i t) (h16 : i ≠ .cvt16) (h32 : i ≠ .cvt32) :
    t.cvtOut = s.cvtOut ∧ t.cvtValid = s.cvtValid ∧ t.cvtW32 = s.cvtW32 := by
  cases he with
  | cvt16 => exact absurd rfl h16
  | cvt32 => exact absurd rfl h32
  | _ => exact ⟨rfl, rfl, rfl⟩

/-- A conversion writes its result and nothing else (R152, R153). -/
theorem conversion_only (he : Effect s i t) (hi : i = .cvt16 ∨ i = .cvt32) :
    t = { s with cvtOut := t.cvtOut, cvtValid := true, cvtW32 := t.cvtW32 } := by
  cases he with
  | cvt16 | cvt32 => rfl
  | latched _ hj | headerShort _ hj => rcases hi with rfl | rfl <;> simp at hj
  | _ => simp at hi

/-- No command clears CVT_VALID (R27). -/
theorem cvtValid_stays (he : Effect s i t) (hs : s.cvtValid = true) : t.cvtValid = true := by
  by_cases hi : i = .cvt16 ∨ i = .cvt32
  · rw [he.conversion_only hi]
  · rw [not_or] at hi
    obtain ⟨-, hvalid, -⟩ := he.conversion_kept hi.1 hi.2
    exact hvalid.trans hs

/-- Only START lowers POS (R21). -/
theorem pos_le (he : Effect s i t) (hi : i ≠ .start) : s.pos ≤ t.pos := by
  cases he with
  | start => exact absurd rfl hi
  | cvt16 | cvt32 | latched | readShort | headerShort => exact Nat.le_refl _
  | readDone | decphDone | decshDone | decthAlone | decthShort => exact Nat.le_add_right _ _
  | decthBoth => exact Nat.le_trans (Nat.le_add_right _ 6) (Nat.le_add_right _ 6)

end Effect

/-- Settles O28: the frame lemmas of the command's effect, together. -/
theorem commandsWriteOnlyTheirRegisters : Obligations.CommandsWriteOnlyTheirRegisters := by
  intro i s t h
  have he := exec_effect h
  refine ⟨he.host_side_kept, he.len_kept, he.view_kept, he.primary_kept, he.secondary_kept, ?_, he.conversion_kept,
    he.conversion_only⟩
  rintro rfl
  exact he.telemetry_flags_kept_by_read

/-- Settles O26: a command keeps a set CVT_VALID, and of the host's other actions only a reset touches it. -/
theorem cvtValidClearedOnlyByReset : Obligations.CvtValidClearedOnlyByReset := by
  intro s t hstep hs ht
  suffices hreset : (∃ rest, s.pending = .reset :: rest) ∨ t.cvtValid = true by
    exact hreset.resolve_right (by simp [ht])
  cases step_effect hstep with
  | reset rest hp => exact .inl ⟨rest, hp⟩
  | command _ _ _ _ _ _ _ he => exact .inr (he.cvtValid_stays hs)
  | operand _ _ _ _ _ _ _ hw => rcases hw with rfl | rfl | rfl | rfl | rfl <;> exact .inr hs
  | _ => exact .inr hs

/-- Settles O30: a command other than START does not lower POS, and of the host's other actions only a reset touches it. -/
theorem posDecreasesOnlyAtStartOrReset : Obligations.PosDecreasesOnlyAtStartOrReset := by
  intro s t hstep hlt
  cases step_effect hstep with
  | reset rest hp => exact ⟨rest, .inr hp⟩
  | command v i rest _ hp hv hd he =>
    by_cases hi : i = .start
    · subst hi
      rw [value_eq_opcode hv hd] at hp
      exact ⟨rest, .inl hp⟩
    · exact absurd (he.pos_le hi) (Nat.not_le.2 hlt)
  | operand _ _ _ _ _ _ _ hw => rcases hw with rfl | rfl | rfl | rfl | rfl <;> exact absurd hlt (Nat.lt_irrefl _)
  | _ => exact absurd hlt (Nat.lt_irrefl _)

end Sys2Proof.Machine
end

section
/-! PROOFS. The host port: the register map row by row, reads, writes that are ignored, and what a reset leaves. -/

namespace Sys2Proof.Machine

/-! The step, by the kind of host action. -/

@[simp] theorem indexValue_setPending (index : Nat) (rest : List HostAction) (s : State) :
    indexValue index (setPending rest s) = indexValue index s := rfl

/-- A register read returns the register's value and changes nothing of the block (R37). -/
theorem step_read {s : State} {index : Nat} {rest : List HostAction} (hp : s.pending = .read index :: rest) :
    step s = .next { s with pending := rest, lastRead := some (indexValue index s) } := by
  rw [step_of_pending hp, perform_read, indexValue_setPending]
  rfl

theorem step_write {s : State} {index value : Nat} {rest : List HostAction} (hp : s.pending = .write index value :: rest) :
    step s = writeIndex index value (setPending rest s) := by
  rw [step_of_pending hp]
  rfl

theorem step_reset {s : State} {rest : List HostAction} (hp : s.pending = .reset :: rest) :
    step s = .next (State.resetOf s.addrW s.hostEndian s.ibuf s.draws rest s.lastRead) := by
  rw [step_of_pending hp, perform_reset]
  rfl

/-! The register map. -/

/-- A row of the map is found at its index: no index stands in two rows (R35). -/
theorem regAt_of_mem {row : Nat × Reg} (h : row ∈ registerMap) : regAt row.1 = some row.2 := by
  revert row
  decide

theorem indexValue_of_regAt {index : Nat} {r : Reg} (s : State) (h : regAt index = some r) :
    indexValue index s = regValue s r := by
  rw [indexValue, h]

/-- The ranges of the listed indexes (R35). -/
theorem index_of_mem_registerMap {row : Nat × Reg} (h : row ∈ registerMap) :
    row.1 ≤ 0x0A ∨ (0x10 ≤ row.1 ∧ row.1 ≤ 0x19) ∨ (0x20 ≤ row.1 ∧ row.1 ≤ 0x21) ∨ (0x30 ≤ row.1 ∧ row.1 ≤ 0x38) := by
  revert row
  decide

/-- An index between or above those ranges is reserved (R36). -/
theorem regAt_reserved {index : Nat}
    (h : (0x0B ≤ index ∧ index ≤ 0x0F) ∨ (0x1A ≤ index ∧ index ≤ 0x1F) ∨ (0x22 ≤ index ∧ index ≤ 0x2F) ∨ 0x39 ≤ index) :
    regAt index = none := by
  cases hr : regAt index with
  | none => rfl
  | some r =>
    have hlisted := index_of_mem_registerMap (regAt_mem hr)
    simp only at hlisted
    omega

/-- A write is ignored at every index but those of CMD, ARG and the converter operands (R36, R37). -/
theorem writeIndex_ignored {index : Nat} (value : Nat) (s : State) (h0 : index ≠ 0x00) (h1 : index ≠ 0x01)
    (hop : index < 0x30 ∨ 0x33 < index) : writeIndex index value s = .next s := by
  unfold writeIndex
  cases hr : regAt index with
  | none => rfl
  | some r =>
    have hrow := regAt_mem hr
    cases r with
    | cmd => exact absurd (regAt_eq_cmd hr) h0
    | arg => exact absurd (regAt_eq_arg hr) h1
    | cvtB0 | cvtB1 | cvtB2 | cvtB3 =>
      simp [registerMap] at hrow
      omega
    | _ => rfl

/-- Settles O35: no row of the map has a reserved index. -/
theorem reservedIndexesReadZeroAndIgnoreWrites : Obligations.ReservedIndexesReadZeroAndIgnoreWrites := by
  intro s rest index value h
  constructor
  · intro hp
    rw [step_read hp, indexValue, regAt_reserved h]
  · intro hp
    rw [step_write hp, writeIndex_ignored value _ (by omega) (by omega) (by omega)]
    rfl

/-- Settles O36: a write goes to the register at its index, and only CMD, ARG and CVT_Bk take it. -/
theorem registerWritesFollowTheAccessRules : Obligations.RegisterWritesFollowTheAccessRules := by
  intro s rest index value
  refine ⟨fun h hp => ?_, step_write, step_write, step_write, step_write, step_write, fun hp => ⟨_, step_read hp⟩,
    fun h0 hp => ?_⟩
  · rw [step_write hp, writeIndex_ignored value _ (by omega) (by omega) (by omega)]
    rfl
  · rw [step_write hp]
    rcases writeIndex_cases value (setPending rest s) h0 with ⟨-, e⟩ | ⟨-, e | e | e | e | e⟩ <;>
      exact ⟨_, _, _, _, _, e⟩

/-! STATUS (R27). -/

/-- The value of STATUS is the sum of its flags' place values. -/
theorem statusByte_toNat (s : State) :
    (statusByte s).toNat = s.err.toNat + 2 * (atEnd s).toNat + 4 * s.phValid.toNat + 8 * s.shValid.toNat +
      16 * s.thValid.toNat + 32 * s.thSec.toNat + 64 * s.cvtValid.toNat + 128 * s.cvtW32.toNat := by
  have byte_of_flags : ∀ b0 b1 b2 b3 b4 b5 b6 b7 : Bool,
      (flagBit b0 0 ||| flagBit b1 1 ||| flagBit b2 2 ||| flagBit b3 3 ||| flagBit b4 4 ||| flagBit b5 5 ||| flagBit b6 6 |||
        flagBit b7 7).toNat = b0.toNat + 2 * b1.toNat + 4 * b2.toNat + 8 * b3.toNat + 16 * b4.toNat + 32 * b5.toNat +
          64 * b6.toNat + 128 * b7.toNat := by decide
  exact byte_of_flags _ _ _ _ _ _ _ _

/-- AT_END is a comparison of LEN and POS (R23). -/
theorem atEnd_eq (s : State) : atEnd s = decide (s.len - s.pos = 0) := rfl

/-- AT_END is bit 1 of STATUS (R27). -/
theorem statusByte_atEnd (s : State) : (statusByte s).getLsbD 1 = atEnd s := by
  simp [statusByte, flagBit]

/-- Settles O32: index 0x08 is REM, and AT_END is bit 1 of STATUS. -/
theorem remAndAtEndAreDerived : Obligations.RemAndAtEndAreDerived := by
  intro s
  exact ⟨rfl, by rw [statusByte_atEnd, atEnd_eq, decide_eq_true_iff]⟩

/-- Settles O38: `State.reset` and the state of a reset action are both `State.resetOf`. -/
theorem resetLeavesTheTableValues : Obligations.ResetLeavesTheTableValues := by
  constructor
  · intro t ht
    obtain ⟨w, e, m, d, l, r, rfl⟩ : ∃ w e m d l r, t = State.resetOf w e m d l r := by
      rcases ht with rfl | ⟨s, rest, hp, hstep⟩
      · exact ⟨_, _, _, _, _, _, rfl⟩
      · rw [step_reset hp] at hstep
        cases hstep
        exact ⟨_, _, _, _, _, _, rfl⟩
    exact ⟨rfl, rfl, rfl, rfl, statusByte_toNat _, rfl, rfl, rfl, rfl, rfl, rfl, rfl, rfl, rfl, rfl, rfl, rfl, rfl, rfl, rfl,
      rfl⟩
  · intro s rest hp
    exact ⟨_, step_reset hp, rfl, rfl, rfl, rfl⟩

end Sys2Proof.Machine
end

section
/-! PROOFS. The header subfields as numbers, as slices and as parts of their words (10_state.md R30), and the register map's
values. -/

namespace Sys2Proof.Machine

/-! The subfields as numbers. -/

theorem applicationId_toNat (w : Word16) : (applicationId w).toNat = w.toNat % 2048 := by
  rw [applicationId_eq_slice, BitVec.extractLsb'_toNat, Nat.shiftRight_zero]

theorem hasSecondaryHeader_toNat (w : Word16) : (hasSecondaryHeader w).toNat = w.toNat / 2048 % 2 := by
  rw [hasSecondaryHeader_eq_bit, BitVec.getLsbD, Nat.toNat_testBit]

theorem packetType_toNat (w : Word16) : (packetType w).toNat = w.toNat / 4096 % 2 := by
  rw [packetType_eq_slice, BitVec.extractLsb'_toNat, Nat.shiftRight_eq_div_pow]

theorem ccsdsVersion_toNat (w : Word16) : (ccsdsVersion w).toNat = w.toNat / 8192 := by
  have hw := w.isLt
  rw [ccsdsVersion_eq_slice, BitVec.extractLsb'_toNat, Nat.shiftRight_eq_div_pow]
  omega

theorem sequenceCount_toNat (w : Word16) : (sequenceCount w).toNat = w.toNat % 16384 := by
  rw [sequenceCount_eq_slice, BitVec.extractLsb'_toNat, Nat.shiftRight_zero]

theorem segmentationFlags_toNat (w : Word16) : (segmentationFlags w).toNat = w.toNat / 16384 := by
  have hw := w.isLt
  rw [segmentationFlags_eq_slice, BitVec.extractLsb'_toNat, Nat.shiftRight_eq_div_pow]
  omega

/-! The subfields and their words. -/

/-- A concatenation is a sum: the first part counts in units of the second's size. -/
theorem toNat_append_eq_add {m n : Nat} (x : BitVec m) (y : BitVec n) : (x ++ y).toNat = x.toNat * 2 ^ n + y.toNat := by
  rw [BitVec.toNat_append, ← Nat.shiftLeft_add_eq_or_of_lt y.isLt, Nat.shiftLeft_eq]

/-- The value of a stream_id word built from its four fields. -/
theorem streamId_toNat (ver : BitVec 3) (typ : BitVec 1) (shf : Bool) (apid : BitVec 11) :
    (ver ++ typ ++ BitVec.ofBool shf ++ apid).toNat =
      ver.toNat * 8192 + typ.toNat * 4096 + shf.toNat * 2048 + apid.toNat := by
  simp only [toNat_append_eq_add, BitVec.toNat_ofBool]
  omega

/-- The four fields of the stream_id word are the word. -/
theorem streamId_eq_append (w : Word16) :
    w = ccsdsVersion w ++ packetType w ++ BitVec.ofBool (hasSecondaryHeader w) ++ applicationId w := by
  apply BitVec.eq_of_toNat_eq
  rw [streamId_toNat, ccsdsVersion_toNat, packetType_toNat, hasSecondaryHeader_toNat, applicationId_toNat]
  omega

/-- The two fields of the sequence word are the word. -/
theorem sequenceWord_eq_append (w : Word16) : w = segmentationFlags w ++ sequenceCount w := by
  apply BitVec.eq_of_toNat_eq
  rw [toNat_append_eq_add, segmentationFlags_toNat, sequenceCount_toNat]
  omega

/-- A masked word that fits `n` bits after the shift loses nothing when it is cut to `n` bits. -/
theorem toNat_setWidth_masked {n : Nat} (w mask : Word16) (k : Nat) (hmask : mask.toNat / 2 ^ k < 2 ^ n) :
    (((w &&& mask) >>> k).setWidth n).toNat = ((w &&& mask) >>> k).toNat := by
  have hle : ((w &&& mask) >>> k).toNat ≤ mask.toNat / 2 ^ k := by
    rw [BitVec.toNat_ushiftRight, Nat.shiftRight_eq_div_pow, BitVec.toNat_and]
    exact Nat.div_le_div_right Nat.and_le_right
  rw [BitVec.toNat_setWidth, Nat.mod_eq_of_lt (Nat.lt_of_le_of_lt hle hmask)]

/-- Settles O33: each subfield is its slice, cutting a masked word to the field's width loses nothing, and the slices make up
the word. -/
theorem subfieldsAreMaskedBits : Obligations.SubfieldsAreMaskedBits := by
  intro s
  refine ⟨?_, ?_, ?_, ?_, ?_, ?_, ?_, ?_, ?_, ?_, ?_, ?_, rfl, streamId_eq_append _, sequenceWord_eq_append _⟩
  · exact toNat_setWidth_masked s.phW0 0x07FF#16 0 (by decide)
  · exact congrArg BitVec.toNat (applicationId_eq_slice s.phW0)
  · change (hasSecondaryHeader s.phW0).toNat = _
    by_cases h : s.phW0 &&& 0x0800#16 = 0#16 <;> simp [hasSecondaryHeader, h]
  · exact congrArg Bool.toNat (hasSecondaryHeader_eq_bit s.phW0)
  · exact toNat_setWidth_masked s.phW0 0x1000#16 12 (by decide)
  · exact congrArg BitVec.toNat (packetType_eq_slice s.phW0)
  · exact toNat_setWidth_masked s.phW0 0xE000#16 13 (by decide)
  · exact congrArg BitVec.toNat (ccsdsVersion_eq_slice s.phW0)
  · exact toNat_setWidth_masked s.phW1 0x3FFF#16 0 (by decide)
  · exact congrArg BitVec.toNat (sequenceCount_eq_slice s.phW1)
  · exact toNat_setWidth_masked s.phW1 0xC000#16 14 (by decide)
  · exact congrArg BitVec.toNat (segmentationFlags_eq_slice s.phW1)

/-! The register map. -/

/-- Where the invariant holds, every register's value fits its width (R35). -/
theorem regValue_fits {s : State} (h : s.Inv) (r : Reg) : regValue s r < 2 ^ regWidth s.addrW r := by
  have hpos := h.pos_le
  have hlen := h.len_fits
  have hview := h.view_consumed
  cases r with
  | cmd => exact Nat.two_pow_pos 8
  | arg => exact h.arg_fits
  | errNeeded => exact h.errNeeded_fits
  | errAvail => exact h.errAvail_fits
  | pos => exact Nat.lt_of_le_of_lt hpos hlen
  | len => exact hlen
  | rem => exact Nat.lt_of_le_of_lt (Nat.sub_le _ _) hlen
  | viewBase | viewLen => simp only [regValue, regWidth]; omega
  | phShf => exact Bool.toNat_lt _
  | _ => exact BitVec.isLt _

/-- The register map with each register's width and value, as a host read finds them. -/
def registerRows (s : State) : List (Nat × Nat × Nat) :=
  registerMap.map fun row => (row.1, regWidth s.addrW row.2, regValue s row.2)

/-- A row of the map is a register of the block. -/
theorem mem_registerRows {s : State} {index width value : Nat} (h : (index, width, value) ∈ registerRows s) :
    ∃ r, regAt index = some r ∧ regWidth s.addrW r = width ∧ indexValue index s = value := by
  obtain ⟨⟨x, r⟩, hrow, heq⟩ := List.mem_map.1 h
  cases heq
  have hreg : regAt x = some r := regAt_of_mem hrow
  exact ⟨r, hreg, rfl, indexValue_of_regAt s hreg⟩

/-- Settles O34: the obligation's table is the register map, whose values fit their widths under the invariant. -/
theorem registerReadsFollowTheMap : Obligations.RegisterReadsFollowTheMap := by
  intro s rest index width value hinv hmem
  have hrow : (index, width, value) ∈ registerRows s := by
    simpa only [registerRows, registerMap, List.map_append, List.map_cons, List.map_nil, regWidth, regValue,
      statusByte_toNat, atEnd_eq, remaining_eq, applicationId_toNat, hasSecondaryHeader_toNat, packetType_toNat,
      ccsdsVersion_toNat, sequenceCount_toNat, segmentationFlags_toNat] using hmem
  obtain ⟨r, hreg, rfl, rfl⟩ := mem_registerRows hrow
  refine ⟨⟨r, hreg, rfl⟩, ?_, step_read⟩
  rw [indexValue_of_regAt s hreg]
  exact regValue_fits hinv r

end Sys2Proof.Machine
end

section
/-! PROOFS. What the commands do with the bytes of the buffer: the issuing of a command, the view of READ, and DECTH on the
wire bytes of a telemetry header. -/

namespace Sys2Proof.Machine

/-! The issuing of a command (R25). -/

@[simp] theorem decode_encode (i : Instr) : decode (encode i) = .command i := by
  cases i <;> rfl

/-- A write of a command's opcode to CMD runs the command with the action taken up. -/
theorem step_command {s : State} {v : Nat} {i : Instr} {rest : List HostAction} (hp : s.pending = .write 0x00 v :: rest)
    (hv : v < 256) (hd : decode (BitVec.ofNat 8 v) = .command i) : step s = exec i (setPending rest s) := by
  rw [step_of_pending hp, perform_write_cmd, issueCommand_of_decode _ hv hd]

/-- Settles O4: a CMD write is taken up and decoded, and `withFetchWord` places the write of the opcode. -/
theorem stepRunsTheDecodedCommand : Obligations.StepRunsTheDecodedCommand := by
  refine ⟨fun s v i rest => step_command, fun s i => ?_, fun s hp => ?_⟩
  · have hlt : (encode i).toNat < 2 ^ 8 := (encode i).isLt
    have hp : (s.withFetchWord 8 (encode i).toNat).pending = .write 0x00 (encode i).toNat :: s.pending := by
      rw [State.withFetchWord, setPending_pending, commandFirst, Nat.mod_eq_of_lt hlt]
    rw [step_command hp hlt (by rw [BitVec.ofNat_toNat, BitVec.setWidth_eq, decode_encode])]
    rfl
  · rw [step, serveHost, hp]

/-! READ. -/

theorem execRead_done {s : State} (he : s.err = false) (hr : s.arg ≤ remaining s) :
    exec .read s = .next (setView s.pos s.arg (advance s.arg s)) := by
  change execRead s = _
  simp [execRead, he, cursorRead_got hr]

/-- Settles O7: READ sets the view to the bytes it consumes, and the host reads the view from IBUF. -/
theorem readViewIsTheNextBytes : Obligations.ReadViewIsTheNextBytes := by
  intro s he hr
  exact ⟨_, execRead_done he hr, Memory.length_readMany _ _ _, fun k hk => Memory.getElem_readMany _ _ _ k hk⟩

/-! DECTH. -/

theorem exec_decth_of_bytes {s : State} {p : HeaderBytes} (he : s.err = false) (hr : 6 ≤ remaining s)
    (hp : headerBytes s s.pos = some p) :
    exec .decth s = finishTelemetry (decodePrimary p) (countDraw (advance 6 s)) := by
  have hfetch : fetchHeader s.pos (advance 6 s) = some (p, countDraw (advance 6 s)) := fetchHeader_of_bytes hp
  change execDecth s = _
  simp [execDecth, he, cursorRead_got hr, hfetch]

theorem finishTelemetry_alone {s : State} {w : PrimaryWords} (hw : hasSecondaryHeader w.w0 = false) :
    finishTelemetry w s = .next (markTelemetry false (latchPrimary w s)) := by
  simp [finishTelemetry, hw]

theorem finishTelemetry_both {s : State} {w : PrimaryWords} {q : HeaderBytes} (hw : hasSecondaryHeader w.w0 = true)
    (hr : 6 ≤ remaining s) (hq : headerBytes s s.pos = some q) :
    finishTelemetry w s =
      .next (markTelemetry true (latchSecondary (decodeSecondary q) (latchPrimary w (countDraw (advance 6 s))))) := by
  have hfetch : fetchHeader s.pos (advance 6 s) = some (q, countDraw (advance 6 s)) := fetchHeader_of_bytes hq
  simp [finishTelemetry, hw, cursorRead_got hr, hfetch]

/-- With no byte of the pass changed, the fetch gives the buffer's six bytes. -/
theorem headerBytes_of_unchanged {s : State} {a : Nat} {p : HeaderBytes} (hc : s.changed = [])
    (hp : ∀ k (hk : k < 6), Memory.read s.ibuf (a + k) = some ([p.b0, p.b1, p.b2, p.b3, p.b4, p.b5][k])) :
    headerBytes s a = some p := by
  have kept (k : Nat) (hk : k < 6) : commandByte s (a + k) = some ([p.b0, p.b1, p.b2, p.b3, p.b4, p.b5][k]) := by
    rw [commandByte_kept (by simp [hc]), hp k hk]
  exact headerBytes_eq_some.2
    ⟨kept 0 (by decide), kept 1 (by decide), kept 2 (by decide), kept 3 (by decide), kept 4 (by decide), kept 5 (by decide)⟩

/-! The wire bytes of a header (R88, R89). -/

/-- The wire bytes of a 16-bit value assemble to it. -/
@[simp] theorem be16_extract (w : Word16) : be16 (w.extractLsb' 8 8) (w.extractLsb' 0 8) = w := by
  apply BitVec.eq_of_toNat_eq
  have hw := w.isLt
  rw [be16_toNat, BitVec.extractLsb'_toNat, BitVec.extractLsb'_toNat, Nat.shiftRight_zero, Nat.shiftRight_eq_div_pow]
  omega

/-- The wire bytes of a 32-bit value assemble to it. -/
@[simp] theorem be32_extract (v : Word32) :
    be32 (v.extractLsb' 24 8) (v.extractLsb' 16 8) (v.extractLsb' 8 8) (v.extractLsb' 0 8) = v := by
  apply BitVec.eq_of_toNat_eq
  have hv := v.isLt
  simp only [be32_toNat, BitVec.extractLsb'_toNat, Nat.shiftRight_eq_div_pow]
  omega

/-- The wire bytes of a primary header's three words (R88). -/
def primaryBytes (w0 w1 w2 : Word16) : HeaderBytes :=
  { b0 := w0.extractLsb' 8 8, b1 := w0.extractLsb' 0 8, b2 := w1.extractLsb' 8 8, b3 := w1.extractLsb' 0 8,
    b4 := w2.extractLsb' 8 8, b5 := w2.extractLsb' 0 8 }

/-- The wire bytes of a secondary header's two values (R89). -/
def secondaryBytes (sec : Word32) (sub : Word16) : HeaderBytes :=
  { b0 := sec.extractLsb' 24 8, b1 := sec.extractLsb' 16 8, b2 := sec.extractLsb' 8 8, b3 := sec.extractLsb' 0 8,
    b4 := sub.extractLsb' 8 8, b5 := sub.extractLsb' 0 8 }

theorem decodePrimary_primaryBytes (w0 w1 w2 : Word16) : decodePrimary (primaryBytes w0 w1 w2) = ⟨w0, w1, w2⟩ := by
  simp only [decodePrimary, primaryBytes, be16_extract]

theorem decodeSecondary_secondaryBytes (sec : Word32) (sub : Word16) :
    decodeSecondary (secondaryBytes sec sub) = ⟨sec, sub⟩ := by
  simp only [decodeSecondary, secondaryBytes, be16_extract, be32_extract]

/-- DECTH on the wire bytes of a header without a secondary part latches its words and consumes 6 bytes. -/
theorem exec_decth_alone {s : State} {w0 w1 w2 : Word16} (he : s.err = false) (hr : 6 ≤ remaining s)
    (hw : hasSecondaryHeader w0 = false) (hp : headerBytes s s.pos = some (primaryBytes w0 w1 w2)) :
    exec .decth s = .next (markTelemetry false (latchPrimary ⟨w0, w1, w2⟩ (countDraw (advance 6 s)))) := by
  rw [exec_decth_of_bytes he hr hp, decodePrimary_primaryBytes, finishTelemetry_alone hw]

/-- DECTH on the wire bytes of both parts of a header latches their values and consumes 12 bytes. -/
theorem exec_decth_both {s : State} {w0 w1 w2 : Word16} {sec : Word32} {sub : Word16} (he : s.err = false)
    (hr : 12 ≤ remaining s) (hw : hasSecondaryHeader w0 = true)
    (hp : headerBytes s s.pos = some (primaryBytes w0 w1 w2))
    (hq : headerBytes (countDraw (advance 6 s)) (s.pos + 6) = some (secondaryBytes sec sub)) :
    exec .decth s = .next (markTelemetry true (latchSecondary ⟨sec, sub⟩
      (latchPrimary ⟨w0, w1, w2⟩ (countDraw (advance 6 (countDraw (advance 6 s))))))) := by
  have hr' : 6 ≤ remaining (countDraw (advance 6 s)) := by rw [remaining_countDraw_advance]; omega
  rw [exec_decth_of_bytes he (by omega) hp, decodePrimary_primaryBytes, finishTelemetry_both hw hr' hq,
    decodeSecondary_secondaryBytes]

/-- DECTH on the wire bytes of a header latches the values they came from, the secondary part where the flag says so (R124). -/
theorem exec_decth_of_wireBytes {s : State} {shf : Bool} {w0 w1 w2 : Word16} {sec : Word32} {sub : Word16}
    (he : s.err = false) (hr : (if shf then 12 else 6) ≤ remaining s) (hw : hasSecondaryHeader w0 = shf)
    (hp : headerBytes s s.pos = some (primaryBytes w0 w1 w2))
    (hq : shf = true → headerBytes (countDraw (advance 6 s)) (s.pos + 6) = some (secondaryBytes sec sub)) :
    ∃ t, exec .decth s = .next t ∧ t.phW0 = w0 ∧ t.phW1 = w1 ∧ t.phW2 = w2 ∧
      (t.thValid = true ∧ t.thSec = shf ∧ t.shValid = shf ∧ t.pos = s.pos + (if shf then 12 else 6)) ∧
      (shf = true → t.shSeconds = sec ∧ t.shSubsec = sub) ∧
      (shf = false → t.shSeconds = s.shSeconds ∧ t.shSubsec = s.shSubsec) := by
  cases shf with
  | false =>
    exact ⟨_, exec_decth_alone he hr hw hp, rfl, rfl, rfl, ⟨rfl, rfl, rfl, rfl⟩, nofun, fun _ => ⟨rfl, rfl⟩⟩
  | true =>
    exact ⟨_, exec_decth_both he hr hw hp (hq rfl), rfl, rfl, rfl, ⟨rfl, rfl, rfl, rfl⟩, fun _ => ⟨rfl, rfl⟩, nofun⟩

/-! The fields read back from their words. -/

section

variable (ver : BitVec 3) (typ : BitVec 1) (shf : Bool) (apid : BitVec 11)

theorem applicationId_streamId : applicationId (ver ++ typ ++ BitVec.ofBool shf ++ apid) = apid := by
  apply BitVec.eq_of_toNat_eq
  have h := apid.isLt
  rw [applicationId_toNat, streamId_toNat]
  omega

theorem hasSecondaryHeader_streamId : hasSecondaryHeader (ver ++ typ ++ BitVec.ofBool shf ++ apid) = shf := by
  rw [hasSecondaryHeader_eq_bit, BitVec.getLsbD_append, BitVec.getLsbD_append]
  simp

theorem packetType_streamId : packetType (ver ++ typ ++ BitVec.ofBool shf ++ apid) = typ := by
  apply BitVec.eq_of_toNat_eq
  have h := apid.isLt
  have hshf := shf.toNat_lt
  have htyp := typ.isLt
  rw [packetType_toNat, streamId_toNat]
  omega

theorem ccsdsVersion_streamId : ccsdsVersion (ver ++ typ ++ BitVec.ofBool shf ++ apid) = ver := by
  apply BitVec.eq_of_toNat_eq
  have h := apid.isLt
  have hshf := shf.toNat_lt
  have htyp := typ.isLt
  rw [ccsdsVersion_toNat, streamId_toNat]
  omega

end

theorem sequenceCount_append (segf : BitVec 2) (seq : BitVec 14) : sequenceCount (segf ++ seq) = seq := by
  apply BitVec.eq_of_toNat_eq
  have h := seq.isLt
  rw [sequenceCount_toNat, toNat_append_eq_add]
  omega

theorem segmentationFlags_append (segf : BitVec 2) (seq : BitVec 14) : segmentationFlags (segf ++ seq) = segf := by
  apply BitVec.eq_of_toNat_eq
  have h := seq.isLt
  rw [segmentationFlags_toNat, toNat_append_eq_add]
  omega

/-- The host reads the fields back from a state whose words were built from them (R30). -/
theorem indexValue_fields {t : State} {ver : BitVec 3} {typ : BitVec 1} {shf : Bool} {apid : BitVec 11} {segf : BitVec 2}
    {seq : BitVec 14} (h0 : t.phW0 = ver ++ typ ++ BitVec.ofBool shf ++ apid) (h1 : t.phW1 = segf ++ seq) :
    indexValue 0x13 t = apid.toNat ∧ indexValue 0x14 t = shf.toNat ∧ indexValue 0x15 t = typ.toNat ∧
      indexValue 0x16 t = ver.toNat ∧ indexValue 0x17 t = seq.toNat ∧ indexValue 0x18 t = segf.toNat := by
  change (applicationId t.phW0).toNat = _ ∧ (hasSecondaryHeader t.phW0).toNat = _ ∧ (packetType t.phW0).toNat = _ ∧
    (ccsdsVersion t.phW0).toNat = _ ∧ (sequenceCount t.phW1).toNat = _ ∧ (segmentationFlags t.phW1).toNat = _
  rw [h0, h1, applicationId_streamId, hasSecondaryHeader_streamId, packetType_streamId, ccsdsVersion_streamId,
    sequenceCount_append, segmentationFlags_append]
  exact ⟨rfl, rfl, rfl, rfl, rfl, rfl⟩

/-- Settles O15: DECTH latches the words the wire bytes came from, and each subfield gives back the value its word was built
from. -/
theorem telemetryHeaderRoundTrip : Obligations.TelemetryHeaderRoundTrip := by
  intro s ver typ apid segf seq plen sec sub shf w0 w1 he hc hlen hw0 hw1 hprim hsec
  have hp : headerBytes s s.pos = some (primaryBytes w0 w1 plen) := headerBytes_of_unchanged hc hprim
  have hflag : hasSecondaryHeader w0 = shf := by rw [hw0, hasSecondaryHeader_streamId]
  have hq (hshf : shf = true) : headerBytes (countDraw (advance 6 s)) (s.pos + 6) = some (secondaryBytes sec sub) :=
    headerBytes_of_unchanged hc (hsec hshf)
  obtain ⟨t, hexec, h0, h1, h2, ⟨hth, hthSec, hsh, hpos⟩, hread, hkept⟩ := exec_decth_of_wireBytes he hlen hflag hp hq
  obtain ⟨hapid, hshf, htyp, hver, hseq, hsegf⟩ := indexValue_fields (h0.trans hw0) (h1.trans hw1)
  have hplen : indexValue 0x19 t = plen.toNat := congrArg BitVec.toNat h2
  refine ⟨t, hexec, hapid, hshf, htyp, hver, hseq, hsegf, hplen, hth, hthSec, hsh, hpos, fun hs => ?_, hkept⟩
  obtain ⟨hseconds, hsubsec⟩ := hread hs
  exact ⟨congrArg BitVec.toNat hseconds, congrArg BitVec.toNat hsubsec⟩

end Sys2Proof.Machine
end

section
/-! PROOFS. What a command can see of the host's side of the block: of IBUF the bytes of the view, of HOST_ENDIAN and of the
value last read nothing. A command commutes with a change of the rest. -/

namespace Sys2Proof.Machine

/-- The outcome with its next state changed by `f`. -/
def mapNext (f : State → State) : Host.Outcome State Fault Refusal → Host.Outcome State Fault Refusal
  | .next s => .next (f s)
  | .fault x => .fault x
  | .refused x => .refused x

@[simp] theorem mapNext_next (f : State → State) (s : State) : mapNext f (.next s) = .next (f s) := rfl
@[simp] theorem mapNext_fault (f : State → State) (x : Fault) : mapNext f (.fault x) = .fault x := rfl
@[simp] theorem mapNext_refused (f : State → State) (x : Refusal) : mapNext f (.refused x) = .refused x := rfl

/-- `s` with another HOST_ENDIAN, another buffer and another value last read. -/
def withHostSide (e : Endian) (m : Memory) (r : Option Nat) (s : State) : State :=
  { s with hostEndian := e, ibuf := m, lastRead := r }

/-- `m` has the bytes of IBUF at the offsets a command may still read, POS to LEN - 1 (R62). -/
def AgreesOnView (m : Memory) (s : State) : Prop :=
  ∀ a, s.pos ≤ a → a < s.len → Memory.read m a = Memory.read s.ibuf a

theorem AgreesOnView.countDraw_advance {m : Memory} {s : State} (h : AgreesOnView m s) (n : Nat) :
    AgreesOnView m (countDraw (advance n s)) :=
  fun a ha => h a (Nat.le_trans (Nat.le_add_right _ n) ha)

/-! The read of a header, which DECPH, DECSH and DECTH share. -/

/-- A cursor read of six bytes and their fetch for command `i`; `use` says what is done with the bytes. -/
def readHeader (i : Instr) (use : HeaderBytes → State → Host.Outcome State Fault Refusal) (s : State) :
    Host.Outcome State Fault Refusal :=
  match cursorRead 6 s with
  | .short t => .next t
  | .got a t =>
    match fetchHeader a t with
    | none => .fault (.ibufUnreadable i)
    | some (p, u) => use p u

theorem execDecph_eq (s : State) : execDecph s = if s.err then .next s else
    readHeader .decph (fun p u => .next (markPrimary (latchPrimary (decodePrimary p) u))) s := rfl

theorem execDecsh_eq (s : State) : execDecsh s = if s.err then .next s else
    readHeader .decsh (fun p u => .next (markSecondary (latchSecondary (decodeSecondary p) u))) s := rfl

theorem execDecth_eq (s : State) : execDecth s = if s.err then .next s else
    readHeader .decth (fun p u => finishTelemetry (decodePrimary p) u) s := rfl

theorem finishTelemetry_eq (w : PrimaryWords) (s : State) :
    finishTelemetry w s = if hasSecondaryHeader w.w0 then
      readHeader .decth
        (fun q u => .next (markTelemetry true (latchSecondary (decodeSecondary q) (latchPrimary w u)))) s
    else .next (markTelemetry false (latchPrimary w s)) := rfl

section

variable {i : Instr} {use : HeaderBytes → State → Host.Outcome State Fault Refusal} {s : State}

theorem readHeader_short (hr : remaining s < 6) :
    readHeader i use s = .next (raiseInsufficientData 6 (remaining s) s) := by
  rw [readHeader, cursorRead_short hr]

theorem readHeader_unreadable (hr : 6 ≤ remaining s) (hp : headerBytes s s.pos = none) :
    readHeader i use s = .fault (.ibufUnreadable i) := by
  have hfetch : fetchHeader s.pos (advance 6 s) = none := fetchHeader_of_unreadable (headerBytes_eq_none.1 hp)
  simp only [readHeader, cursorRead_got hr, hfetch]

theorem readHeader_of_bytes {p : HeaderBytes} (hr : 6 ≤ remaining s) (hp : headerBytes s s.pos = some p) :
    readHeader i use s = use p (countDraw (advance 6 s)) := by
  have hfetch : fetchHeader s.pos (advance 6 s) = some (p, countDraw (advance 6 s)) := fetchHeader_of_bytes hp
  simp only [readHeader, cursorRead_got hr, hfetch]

end

/-! READ. -/

theorem execRead_latched {s : State} (he : s.err = true) : exec .read s = .next s := if_pos he

theorem execRead_short {s : State} (he : s.err = false) (hr : remaining s < s.arg) :
    exec .read s = .next (raiseInsufficientData s.arg (remaining s) s) := by
  change execRead s = _
  simp [execRead, he, cursorRead_short hr]

/-! Each command commutes with a change of the host's side that keeps the bytes of the view. -/

section

variable (e : Endian) {m : Memory} (r : Option Nat) {s : State}

/-- A header inside the view reads the same bytes from either buffer. -/
theorem headerBytes_withHostSide (hm : AgreesOnView m s) (hr : 6 ≤ remaining s) :
    headerBytes (withHostSide e m r s) s.pos = headerBytes s s.pos := by
  have byte (k : Nat) (hk : k < 6) : commandByte (withHostSide e m r s) (s.pos + k) = commandByte s (s.pos + k) := by
    rw [remaining_eq] at hr
    exact commandByte_congr _ (hm _ (by omega) (by omega)) rfl rfl
  have byte0 : commandByte (withHostSide e m r s) s.pos = commandByte s s.pos := byte 0 (by decide)
  rw [headerBytes, headerBytes, byte0, byte 1 (by decide), byte 2 (by decide), byte 3 (by decide), byte 4 (by decide),
    byte 5 (by decide)]

/-- A header read commutes when the use of the bytes does. -/
theorem readHeader_withHostSide {i : Instr} {use : HeaderBytes → State → Host.Outcome State Fault Refusal}
    (hm : AgreesOnView m s)
    (huse : ∀ p, use p (withHostSide e m r (countDraw (advance 6 s))) =
      mapNext (withHostSide e m r) (use p (countDraw (advance 6 s)))) :
    readHeader i use (withHostSide e m r s) = mapNext (withHostSide e m r) (readHeader i use s) := by
  by_cases hr : 6 ≤ remaining s
  · have hbytes := headerBytes_withHostSide e r hm hr
    cases hp : headerBytes s s.pos with
    | none => rw [readHeader_unreadable hr hp, readHeader_unreadable (s := withHostSide e m r s) hr (hbytes.trans hp),
        mapNext_fault]
    | some p =>
      rw [readHeader_of_bytes hr hp, readHeader_of_bytes (s := withHostSide e m r s) hr (hbytes.trans hp)]
      exact huse p
  · have hr' : remaining s < 6 := by omega
    rw [readHeader_short hr', readHeader_short (s := withHostSide e m r s) hr']
    rfl

theorem finishTelemetry_withHostSide (w : PrimaryWords) (hm : AgreesOnView m s) :
    finishTelemetry w (withHostSide e m r s) = mapNext (withHostSide e m r) (finishTelemetry w s) := by
  rw [finishTelemetry_eq, finishTelemetry_eq]
  split
  · exact readHeader_withHostSide e r hm fun _ => rfl
  · rfl

/-- A command that only runs while no error is latched commutes when its body does. -/
theorem latch_withHostSide {body : State → Host.Outcome State Fault Refusal}
    (h : body (withHostSide e m r s) = mapNext (withHostSide e m r) (body s)) :
    (if (withHostSide e m r s).err then .next (withHostSide e m r s) else body (withHostSide e m r s)) =
      mapNext (withHostSide e m r) (if s.err then .next s else body s) := by
  rw [h, show (withHostSide e m r s).err = s.err from rfl]
  cases s.err <;> rfl

theorem execRead_withHostSide : exec .read (withHostSide e m r s) = mapNext (withHostSide e m r) (exec .read s) := by
  cases he : s.err with
  | true => rw [execRead_latched he, execRead_latched (s := withHostSide e m r s) he, mapNext_next]
  | false =>
    by_cases hr : s.arg ≤ remaining s
    · rw [execRead_done he hr, execRead_done (s := withHostSide e m r s) he hr]
      rfl
    · have hr' : remaining s < s.arg := by omega
      rw [execRead_short he hr', execRead_short (s := withHostSide e m r s) he hr']
      rfl

/-- A command does the same, and stops the same, whatever the host's side has outside the view (R62, R64). -/
theorem exec_withHostSide (i : Instr) (hm : AgreesOnView m s) :
    exec i (withHostSide e m r s) = mapNext (withHostSide e m r) (exec i s) := by
  cases i with
  | start | cvt16 | cvt32 => rfl
  | read => exact execRead_withHostSide e r
  | decph => exact latch_withHostSide e r (readHeader_withHostSide e r hm fun _ => rfl)
  | decsh => exact latch_withHostSide e r (readHeader_withHostSide e r hm fun _ => rfl)
  | decth =>
    exact latch_withHostSide e r (readHeader_withHostSide e r hm fun p =>
      finishTelemetry_withHostSide e r (decodePrimary p) (hm.countDraw_advance 6))

end

/-! Bytes outside the view (R62). -/

/-- Settles O31: with the parameter and the value last read kept, only the buffer differs. -/
theorem bytesOutsideTheViewAreInvisible : Obligations.BytesOutsideTheViewAreInvisible := by
  intro i s m hm
  have hcommute : exec i { s with ibuf := m } = mapNext (withHostSide s.hostEndian m s.lastRead) (exec i s) :=
    exec_withHostSide s.hostEndian s.lastRead i hm
  refine ⟨fun t ht => ?_, fun f hf => by rw [hcommute, hf, mapNext_fault]⟩
  obtain ⟨-, -, -, -, -, -, hendian, -, -, hread⟩ := (exec_effect ht).host_side_kept
  rw [hcommute, ht, mapNext_next, withHostSide, ← hendian, ← hread]

/-! HOST_ENDIAN (R64). -/

/-- With no action pending a step changes nothing (R184). -/
theorem step_idle {s : State} (hp : s.pending = []) : step s = .next s := by
  rw [step, serveHost, hp]

/-- `s` with another HOST_ENDIAN and another value last read. -/
def withEndian (e : Endian) (r : Option Nat) (s : State) : State := withHostSide e s.ibuf r s

section

variable (e : Endian) (r : Option Nat) (s : State)

/-- No command sees HOST_ENDIAN: it has the same outcome under either. -/
theorem exec_withEndian (i : Instr) : exec i (withEndian e r s) = mapNext (withEndian e r) (exec i s) := by
  rw [withEndian, exec_withHostSide e r i fun _ _ _ => rfl]
  cases h : exec i s with
  | next t =>
    obtain ⟨-, -, -, -, -, -, -, hbuf, -, -⟩ := (exec_effect h).host_side_kept
    rw [mapNext_next, mapNext_next, withEndian, hbuf]
  | fault | refused => rfl

theorem issueCommand_withEndian (value : Nat) :
    issueCommand value (withEndian e r s) = mapNext (withEndian e r) (issueCommand value s) := by
  unfold issueCommand
  split
  · split
    · exact exec_withEndian e r s _
    · rfl
  · rfl

/-- A register write has the same outcome under either byte order, a command issued by it too. -/
theorem writeIndex_withEndian (index value : Nat) :
    writeIndex index value (withEndian e r s) = mapNext (withEndian e r) (writeIndex index value s) := by
  unfold writeIndex
  cases regAt index with
  | none => rfl
  | some reg =>
    cases reg with
    | cmd => exact issueCommand_withEndian e r s value
    | _ => rfl

/-- A host action has the same outcome under either byte order, but for the value it reads. -/
theorem perform_withEndian (a : HostAction) :
    ∃ r', perform a (withEndian e r s) = mapNext (withEndian e r') (perform a s) := by
  cases a with
  | write index value => exact ⟨r, writeIndex_withEndian e r s index value⟩
  | read index => exact ⟨some (indexValue index (withEndian e r s)), rfl⟩
  | bind | store | reset => exact ⟨r, rfl⟩

theorem step_withEndian : ∃ r', step (withEndian e r s) = mapNext (withEndian e r') (step s) := by
  cases hp : s.pending with
  | nil => exact ⟨r, by rw [step_idle hp, step_idle (s := withEndian e r s) hp, mapNext_next]⟩
  | cons a rest =>
    rw [step_of_pending hp, step_of_pending (s := withEndian e r s) hp]
    exact perform_withEndian e r (setPending rest s) a

/-- Runs of any length, from states that differ in HOST_ENDIAN and the value last read alone, have the same outcome but for
these two. -/
theorem run_withEndian (k : Nat) : ∃ r', Host.Core.run Sys2Proof.core k (withEndian e r s) =
    mapNext (withEndian e r') (Host.Core.run Sys2Proof.core k s) := by
  induction k generalizing r s with
  | zero => exact ⟨r, rfl⟩
  | succ k ih =>
    obtain ⟨r', hstep⟩ := step_withEndian e r s
    cases h : step s with
    | next t =>
      rw [h] at hstep
      rw [run_of_next h, run_of_next hstep]
      exact ih r' t
    | fault =>
      rw [h] at hstep
      exact ⟨r', by rw [run_of_fault h, run_of_fault hstep]; rfl⟩
    | refused =>
      rw [h] at hstep
      exact ⟨r', by rw [run_of_refused h, run_of_refused hstep]; rfl⟩

end

/-- Settles O42: by induction on the run, each step commuting with the change of HOST_ENDIAN and the value last read. -/
theorem hostByteOrderIsInvisibleToCommands : Obligations.HostByteOrderIsInvisibleToCommands := by
  intro k s e
  obtain ⟨r, hrun⟩ := run_withEndian e s.lastRead s k
  exact ⟨fun _ ht => ⟨r, hrun.trans (congrArg (mapNext (withEndian e r)) ht)⟩,
    fun _ hf => hrun.trans (congrArg (mapNext (withEndian e r)) hf),
    fun _ hx => hrun.trans (congrArg (mapNext (withEndian e r)) hx)⟩

end Sys2Proof.Machine
end

section
/-! PROOFS. IBUF between the host and the header commands: what binding and storing leave, the byte a command gets, and the
values DECPH and DECSH make of six bytes. -/

namespace Sys2Proof.Machine

/-! The host's changes of IBUF. -/

/-- An offset at which two buffers differ is listed by one of them. -/
theorem Memory.mem_offsets_of_differ {m m' : Memory} {a : Nat} (h : Memory.read m a ≠ Memory.read m' a) :
    a ∈ Memory.offsets m ++ Memory.offsets m' := by
  by_cases hm : Memory.read m a = none
  · rw [hm] at h
    exact List.mem_append_right _ (Memory.mem_offsets_of_read h.symm)
  · exact List.mem_append_left _ (Memory.mem_offsets_of_read hm)

/-- Read after write, any offset. -/
theorem Memory.read_write (m : Memory) (a c : Nat) (b : Byte) :
    Memory.read (Memory.write m a b) c = if c = a then some b else Memory.read m c := by
  split
  · subst c
    exact Memory.read_write_same m a b
  · exact Memory.read_write_other m a c b ‹_›

/-- Settles O37: a step marks the offsets it compares, and a bind compares every offset either buffer lists. -/
theorem hostBufferChangesAreMarked : Obligations.HostBufferChangesAreMarked := by
  intro s rest
  constructor
  · intro bytes hp
    refine ⟨_, _, step_of_pending hp, fun a => Memory.read_ofBytes a bytes, fun a => ?_⟩
    rw [mem_markChanged, ← Memory.read_ofBytes]
    exact or_congr_right ⟨fun ⟨_, h⟩ => h, fun h => ⟨Memory.mem_offsets_of_differ h.2, h⟩⟩
  · intro offset byte hp
    refine ⟨_, _, step_of_pending hp, fun a => Memory.read_write _ offset a byte, fun a => ?_⟩
    rw [mem_markChanged, List.mem_singleton, Memory.read_write]
    refine or_congr_right (and_congr_right fun ha => ?_)
    rw [if_pos ha]
    rfl

/-! The byte a header command gets. -/

/-- Settles O12: the three cases of the fetch of a byte. -/
theorem headerByteIsTheBufferByte : Obligations.HeaderByteIsTheBufferByte :=
  fun _ _ => ⟨fun _ hb => ⟨fun h => (commandByte_kept h).trans hb, fun h => commandByte_changed h hb⟩,
    commandByte_eq_none.2⟩

/-- Settles O27: every command leaves IBUF itself as it was. -/
theorem commandsNeverWriteIbuf : Obligations.CommandsNeverWriteIbuf := by
  intro i s t h a
  obtain ⟨-, -, -, -, -, -, -, hbuf, -, -⟩ := (exec_effect h).host_side_kept
  rw [hbuf]

/-! The values of a header. -/

theorem exec_decph_of_bytes {s : State} {p : HeaderBytes} (he : s.err = false) (hr : 6 ≤ remaining s)
    (hp : headerBytes s s.pos = some p) :
    exec .decph s = .next (markPrimary (latchPrimary (decodePrimary p) (countDraw (advance 6 s)))) := by
  change execDecph s = _
  rw [execDecph_eq, he, readHeader_of_bytes hr hp]
  rfl

theorem exec_decsh_of_bytes {s : State} {p : HeaderBytes} (he : s.err = false) (hr : 6 ≤ remaining s)
    (hp : headerBytes s s.pos = some p) :
    exec .decsh s = .next (markSecondary (latchSecondary (decodeSecondary p) (countDraw (advance 6 s)))) := by
  change execDecsh s = _
  rw [execDecsh_eq, he, readHeader_of_bytes hr hp]
  rfl

/-- Settles O14: the commands latch `be16` and `be32` of the six bytes, which are big-endian sums. -/
theorem headerFieldsAreBigEndian : Obligations.HeaderFieldsAreBigEndian := by
  intro s p he hr hc hp
  have hbytes : headerBytes s s.pos = some ⟨p 0, p 1, p 2, p 3, p 4, p 5⟩ := by
    refine headerBytes_of_unchanged hc fun k hk => (hp ⟨k, hk⟩).trans ?_
    interval_cases k <;> rfl
  exact ⟨⟨_, exec_decph_of_bytes he hr hbytes, be16_toNat _ _, be16_toNat _ _, be16_toNat _ _⟩,
    ⟨_, exec_decsh_of_bytes he hr hbytes, be32_toNat _ _ _ _, be16_toNat _ _⟩⟩

end Sys2Proof.Machine
end

section
/-! PROOFS. The opcode map: decoding against encoding, the table word of a command, and the reserved opcodes
(30_encoding.md R82, R84, R85). -/

namespace Sys2Proof.Machine

/-! Decoding and encoding. -/

theorem encode_of_decode {opc : Byte} {i : Instr} (hd : decode opc = .command i) : encode i = opc := by
  rcases decode_cases opc with hres | ⟨j, hj, rfl⟩
  · cases hres.symm.trans hd
  · cases hj.symm.trans hd
    rfl

/-- Every opcode is a table word of 8 bits (R85). -/
@[simp] theorem tableOpcode_toNat (opc : Byte) : tableOpcode 8 opc.toNat = some opc := by
  have hlt : opc.toNat < 256 := opc.isLt
  rw [tableOpcode, Nat.mod_eq_of_lt opc.isLt, if_pos hlt, BitVec.ofNat_toNat, BitVec.setWidth_eq]

theorem decodeTableWord_toNat_eq_some {opc : Byte} {i : Instr} :
    decodeTableWord 8 opc.toNat = some i ↔ decode opc = .command i := by
  cases hd : decode opc <;> simp [decodeTableWord, hd]

/-- Settles O1: an instance of `decode_encode` for each command of the map. -/
theorem opcodeMapOfTheSevenCommands : Obligations.OpcodeMapOfTheSevenCommands :=
  ⟨⟨decode_encode .start, rfl⟩, ⟨decode_encode .read, rfl⟩, ⟨decode_encode .decph, rfl⟩, ⟨decode_encode .decsh, rfl⟩,
    ⟨decode_encode .decth, rfl⟩, ⟨decode_encode .cvt16, rfl⟩, ⟨decode_encode .cvt32, rfl⟩⟩

/-- Settles O2: `encode` and `decode` are inverse to each other on the commands, and a table word is the opcode itself. -/
theorem decodeAndEncodeAgree : Obligations.DecodeAndEncodeAgree :=
  ⟨fun i _ => decode_encode i, fun _ _ => encode_of_decode, fun _ _ => decodeTableWord_toNat_eq_some⟩

/-! The reserved opcodes (R84). -/

/-- The opcodes of the map (R82), as values of CMD. -/
def commandOpcodes : Finset Nat := {0x01, 0x02, 0x10, 0x11, 0x12, 0x20, 0x21}

theorem encode_toNat_mem_commandOpcodes (i : Instr) : (encode i).toNat ∈ commandOpcodes := by
  cases i <;> decide

/-- No opcode of the map is reserved. -/
theorem decode_ne_reserved_of_mem {v : Nat} (h : v ∈ commandOpcodes) (opc : Byte) :
    decode (BitVec.ofNat 8 v) ≠ .reserved opc := by
  simp only [commandOpcodes, Finset.mem_insert, Finset.mem_singleton] at h
  rcases h with rfl | rfl | rfl | rfl | rfl | rfl | rfl <;> exact Decoded.noConfusion

/-- The reserved values of CMD are the others of 8 bits (R84). -/
theorem decode_eq_reserved_iff {v : Nat} (hv : v < 256) :
    decode (BitVec.ofNat 8 v) = .reserved (BitVec.ofNat 8 v) ↔ v ∉ commandOpcodes := by
  refine ⟨fun hres hmem => decode_ne_reserved_of_mem hmem _ hres, fun hmem => ?_⟩
  rcases decode_cases (BitVec.ofNat 8 v) with hres | ⟨i, hd, -⟩
  · exact hres
  · rw [value_eq_opcode hv hd] at hmem
    exact absurd (encode_toNat_mem_commandOpcodes i) hmem

/-- The reserved values are the 256 without the seven of the map. -/
theorem filter_reserved_eq_sdiff :
    ((Finset.range 256).filter fun v => decode (BitVec.ofNat 8 v) = .reserved (BitVec.ofNat 8 v)) =
      Finset.range 256 \ commandOpcodes := by
  ext v
  simp only [Finset.mem_filter, Finset.mem_sdiff, Finset.mem_range]
  exact and_congr_right decode_eq_reserved_iff

theorem card_reserved :
    ((Finset.range 256).filter fun v => decode (BitVec.ofNat 8 v) = .reserved (BitVec.ofNat 8 v)).card = 249 := by
  have hsub : commandOpcodes ⊆ Finset.range 256 := by simp [commandOpcodes, Finset.insert_subset_iff]
  rw [filter_reserved_eq_sdiff, Finset.card_sdiff_of_subset hsub, Finset.card_range]
  rfl

/-- A write of a reserved opcode to CMD is taken up and does nothing else. -/
theorem step_reserved {s : State} {v : Nat} {opc : Byte} {rest : List HostAction} (hp : s.pending = .write 0x00 v :: rest)
    (hv : v < 256) (hd : decode (BitVec.ofNat 8 v) = .reserved opc) : step s = .next (setPending rest s) := by
  rw [step_of_pending hp, perform_write_cmd]
  simp [issueCommand, hv, hd]

/-- Settles O3: 249 is 256 less the seven opcodes, and none of the seven lies in R84's ranges. -/
theorem reservedOpcodesChangeNoState : Obligations.ReservedOpcodesChangeNoState := by
  refine ⟨card_reserved, fun s v rest hrange hp => ?_⟩
  have hv : v < 256 := by omega
  have hmem : v ∉ commandOpcodes := by
    simp only [commandOpcodes, Finset.mem_insert, Finset.mem_singleton]
    omega
  exact step_reserved hp hv ((decode_eq_reserved_iff hv).2 hmem)

end Sys2Proof.Machine
end

section
/-! PROOFS. The cursor commands: START, READ and the cursor read, each by its whole effect, and the bytes every command consumes
(40_cursor.md R100 to R103). -/

namespace Sys2Proof.Machine

/-! The cursor read (R102). -/

/-- Settles O8: the two answers of the cursor read, and the bound against the source's. -/
theorem cursorReadIsAllOrNothing : Obligations.CursorReadIsAllOrNothing := by
  intro n s
  refine ⟨cursorRead_short, cursorRead_got, remaining_lt_iff, fun h hn => ?_⟩
  omega

/-! START (R100). -/

/-- After START the cursor is at the end of an empty view alone. -/
theorem atEnd_start (s : State) : atEnd (clearHeaderFlags (clearError (bindView s.arg s))) = true ↔ s.arg = 0 := by
  simp [atEnd_eq]

/-- Settles O5: START binds the view and clears the results; REM is then ARG. -/
theorem startBindsViewAndClearsResults : Obligations.StartBindsViewAndClearsResults := by
  refine ⟨decode_encode .start, fun s => ⟨rfl, fun t ht => ?_⟩⟩
  cases ht
  exact atEnd_start s

/-! READ (R101). -/

/-- Settles O6: READ under the latch, short of bytes, and done. -/
theorem readConsumesOrRaises : Obligations.ReadConsumesOrRaises :=
  ⟨decode_encode .read, fun _ => ⟨execRead_latched, execRead_short, execRead_done⟩⟩

/-! The bytes consumed (R103). -/

namespace Effect

variable {s t : State} {i : Instr}

/-- A successful READ consumes ARG bytes. -/
theorem pos_of_read_done (he : Effect s .read t) (ht : t.err = false) : t.pos = s.pos + s.arg := by
  cases he with
  | readDone => rfl
  | latched _ _ herr => simp [herr] at ht
  | readShort | headerShort => simp at ht

/-- A successful DECPH or DECSH consumes 6 bytes. -/
theorem pos_of_header_done (he : Effect s i t) (hi : i = .decph ∨ i = .decsh) (ht : t.err = false) :
    t.pos = s.pos + 6 := by
  cases he with
  | decphDone | decshDone => rfl
  | latched _ _ herr => simp [herr] at ht
  | headerShort => simp at ht
  | _ => simp at hi

/-- A successful DECTH consumes the bytes of both headers, or of the primary one where there is no other. -/
theorem pos_of_telemetry_done (he : Effect s .decth t) (ht : t.err = false) :
    t.pos = s.pos + if t.thSec then 12 else 6 := by
  cases he with
  | decthAlone | decthBoth => rfl
  | latched _ _ herr => simp [herr] at ht
  | headerShort | decthShort => simp at ht

/-- A command that raises consumes nothing, but for the first read of DECTH (R172). -/
theorem pos_of_raised (he : Effect s i t) (hs : s.err = false) (ht : t.err = true) :
    t.pos = s.pos + if i = .decth ∧ 6 ≤ s.len - s.pos then 6 else 0 := by
  cases he with
  | readShort => rfl
  | headerShort _ _ _ hr => rw [if_neg fun h => Nat.not_le_of_lt hr h.2]; rfl
  | decthShort _ _ hr => rw [if_pos ⟨rfl, hr⟩]; rfl
  | start => simp at ht
  | _ => simp [hs] at ht

/-- Under the latch nothing but START moves POS, and a conversion never does (R100, R152, R153). -/
theorem pos_kept (he : Effect s i t) (hstart : i ≠ .start) (h : s.err = true ∨ i = .cvt16 ∨ i = .cvt32) :
    t.pos = s.pos := by
  cases he with
  | start => exact absurd rfl hstart
  | cvt16 | cvt32 | latched | readShort | headerShort => rfl
  | readDone herr | decphDone _ herr | decshDone _ herr | decthAlone _ herr | decthShort _ herr | decthBoth _ _ herr =>
    simp [herr] at h

end Effect

/-- Settles O29: the move of POS in each effect a command other than START can have. -/
theorem consumedByteCount : Obligations.ConsumedByteCount := by
  intro i s t h hstart
  have he := exec_effect h
  refine ⟨?_, fun hi ht => ?_, ?_, he.pos_of_raised, he.pos_kept hstart⟩
  · rintro rfl ht
    exact ⟨by rw [he.pos_of_read_done ht, Nat.add_sub_cancel_left], he.pos_le hstart⟩
  · rw [he.pos_of_header_done hi ht, Nat.add_sub_cancel_left]
  · rintro rfl ht
    rw [he.pos_of_telemetry_done ht, Nat.add_sub_cancel_left]

end Sys2Proof.Machine
end

section
/-! PROOFS. The header commands DECPH, DECSH and DECTH, each by its whole effect in terms of the bytes it fetches
(41_header_decode.md R122 to R124). -/

namespace Sys2Proof.Machine

/-! The values decoded are the bytes in wire order (R120, R121). -/

theorem decodePrimary_eq_append (p : HeaderBytes) :
    decodePrimary p = ⟨p.b0 ++ p.b1, p.b2 ++ p.b3, p.b4 ++ p.b5⟩ := by
  simp only [decodePrimary, be16_eq_append]

theorem decodeSecondary_eq_append (q : HeaderBytes) :
    decodeSecondary q = ⟨q.b0 ++ q.b1 ++ q.b2 ++ q.b3, q.b4 ++ q.b5⟩ := by
  simp only [decodeSecondary, be16_eq_append, be32_eq_append]

/-! The two cases the three commands share. -/

/-- Under the error latch a header command does nothing (R122 to R124). -/
theorem exec_header_latched {i : Instr} {s : State} (hi : i = .decph ∨ i = .decsh ∨ i = .decth) (he : s.err = true) :
    exec i s = .next s := by
  rcases hi with rfl | rfl | rfl <;> exact if_pos he

/-- A header command whose first read runs short latches the error and nothing else. -/
theorem exec_header_short {i : Instr} {s : State} (hi : i = .decph ∨ i = .decsh ∨ i = .decth) (he : s.err = false)
    (hr : remaining s < 6) : exec i s = .next (raiseInsufficientData 6 (remaining s) s) := by
  have body (use : HeaderBytes → State → Host.Outcome State Fault Refusal) :
      (if s.err then .next s else readHeader i use s) = .next (raiseInsufficientData 6 (remaining s) s) := by
    rw [he, readHeader_short hr]
    rfl
  rcases hi with rfl | rfl | rfl
  · exact (execDecph_eq s).trans (body _)
  · exact (execDecsh_eq s).trans (body _)
  · exact (execDecth_eq s).trans (body _)

/-! DECPH and DECSH. -/

/-- Settles O9: under the latch, short of bytes, and the three words of the bytes fetched. -/
theorem decphLatchesThePrimaryHeader : Obligations.DecphLatchesThePrimaryHeader := by
  refine ⟨decode_encode .decph, fun s p0 p1 p2 p3 p4 p5 =>
    ⟨exec_header_latched (by simp), exec_header_short (by simp), fun he hr h0 h1 h2 h3 h4 h5 => ?_⟩⟩
  have hp : headerBytes s s.pos = some ⟨p0, p1, p2, p3, p4, p5⟩ := headerBytes_eq_some.2 ⟨h0, h1, h2, h3, h4, h5⟩
  rw [exec_decph_of_bytes he hr hp, decodePrimary_eq_append]
  rfl

/-- Settles O10: under the latch, short of bytes, and the two values of the bytes fetched. -/
theorem decshLatchesTheSecondaryHeader : Obligations.DecshLatchesTheSecondaryHeader := by
  refine ⟨decode_encode .decsh, fun s p0 p1 p2 p3 p4 p5 =>
    ⟨exec_header_latched (by simp), exec_header_short (by simp), fun he hr h0 h1 h2 h3 h4 h5 => ?_⟩⟩
  have hp : headerBytes s s.pos = some ⟨p0, p1, p2, p3, p4, p5⟩ := headerBytes_eq_some.2 ⟨h0, h1, h2, h3, h4, h5⟩
  rw [exec_decsh_of_bytes he hr hp, decodeSecondary_eq_append]
  rfl

/-! DECTH. -/

/-- The second read of DECTH runs short: the error is latched and no word is (R124, R172). -/
theorem finishTelemetry_short {s : State} {w : PrimaryWords} (hw : hasSecondaryHeader w.w0 = true)
    (hr : remaining s < 6) : finishTelemetry w s = .next (raiseInsufficientData 6 (remaining s) s) := by
  rw [finishTelemetry_eq, if_pos hw, readHeader_short hr]

/-- The secondary header flag of a decoded primary header is bit 3 of its first byte (R88). -/
theorem hasSecondaryHeader_decodePrimary (p : HeaderBytes) :
    hasSecondaryHeader (decodePrimary p).w0 = p.b0.getLsbD 3 :=
  hasSecondaryHeader_be16 _ _

/-- Settles O11: with the first read done, the flag and the bytes left decide how DECTH finishes. -/
theorem decthLatchesTheTelemetryHeader : Obligations.DecthLatchesTheTelemetryHeader := by
  refine ⟨decode_encode .decth, fun s p0 p1 p2 p3 p4 p5 q0 q1 q2 q3 q4 q5 =>
    ⟨exec_header_latched (by simp), exec_header_short (by simp), fun he hr h0 h1 h2 h3 h4 h5 => ?_⟩⟩
  have hp : headerBytes s s.pos = some ⟨p0, p1, p2, p3, p4, p5⟩ := headerBytes_eq_some.2 ⟨h0, h1, h2, h3, h4, h5⟩
  have hflag := hasSecondaryHeader_decodePrimary ⟨p0, p1, p2, p3, p4, p5⟩
  have hleft : remaining (countDraw (advance 6 s)) = s.len - s.pos - 6 := remaining_countDraw_advance 6 s
  rw [exec_decth_of_bytes he hr hp]
  refine ⟨fun hf => ?alone, fun hf hlt => ?short, fun hf hge g0 g1 g2 g3 g4 g5 => ?both⟩
  case alone =>
    rw [finishTelemetry_alone (hflag.trans hf), decodePrimary_eq_append]
    rfl
  case short =>
    rw [finishTelemetry_short (hflag.trans hf) (by omega)]
    rfl
  case both =>
    have hq : headerBytes (countDraw (advance 6 s)) (s.pos + 6) = some ⟨q0, q1, q2, q3, q4, q5⟩ :=
      headerBytes_eq_some.2 ⟨g0, g1, g2, g3, g4, g5⟩
    rw [finishTelemetry_both (hflag.trans hf) (by omega) hq, decodePrimary_eq_append, decodeSecondary_eq_append]
    rfl

end Sys2Proof.Machine
end

section
/-! PROOFS. The converter: CVT16 and CVT32 by their whole effect, the number each gives, and the host byte image it leaves
(42_byte_order.md R150 to R156). -/

namespace Sys2Proof.Machine

/-! The two conversions. -/

theorem exec_cvt16 (s : State) : exec .cvt16 s = .next (latchConversion (cvt16Value s) false s) := rfl

theorem exec_cvt32 (s : State) : exec .cvt32 s = .next (latchConversion (cvt32Value s) true s) := rfl

/-- Settles O16: the operand is the concatenation of the two bytes, and `latchConversion` is the whole effect. -/
theorem cvt16ConvertsTwoBytes : Obligations.Cvt16ConvertsTwoBytes := by
  refine ⟨decode_encode .cvt16, fun s => ?_⟩
  rw [exec_cvt16, cvt16Value_eq]
  rfl

/-- Settles O17: the operand is the concatenation of the four bytes, and `latchConversion` is the whole effect. -/
theorem cvt32ConvertsFourBytes : Obligations.Cvt32ConvertsFourBytes := by
  refine ⟨decode_encode .cvt32, fun s => ?_⟩
  rw [exec_cvt32, cvt32Value_eq]
  rfl

/-- Settles O18: the operands are positional sums of the CVT_Bk, whatever HOST_ENDIAN is. -/
theorem conversionIsPositionalOnEveryHost : Obligations.ConversionIsPositionalOnEveryHost :=
  fun _ _ => ⟨⟨_, exec_cvt16 _, cvt16Value_toNat _⟩, ⟨_, exec_cvt32 _, cvt32Value_toNat _⟩⟩

/-! The host byte image. -/

/-- Once a conversion has run, the image is `imageByte` of CVT_OUT (R151). -/
theorem hostImage_of_valid {s : State} (hv : s.cvtValid = true) (k : Nat) :
    hostImage s k = imageByte s.hostEndian s.cvtW32 s.cvtOut k :=
  if_pos hv

/-- The host reads the image at indexes 0x35 to 0x38 (R33, R35). -/
theorem indexValue_image {s : State} {w32 : Bool} {e : Endian} (hv : s.cvtValid = true) (hw : s.cvtW32 = w32)
    (he : s.hostEndian = e) :
    indexValue 0x35 s = (imageByte e w32 s.cvtOut 0).toNat ∧ indexValue 0x36 s = (imageByte e w32 s.cvtOut 1).toNat ∧
      indexValue 0x37 s = (imageByte e w32 s.cvtOut 2).toNat ∧ indexValue 0x38 s = (imageByte e w32 s.cvtOut 3).toNat := by
  subst hw he
  simp only [← hostImage_of_valid hv]
  exact ⟨indexValue_of_regAt s (r := .cvtHimg0) rfl, indexValue_of_regAt s (r := .cvtHimg1) rfl,
    indexValue_of_regAt s (r := .cvtHimg2) rfl, indexValue_of_regAt s (r := .cvtHimg3) rfl⟩

/-- Settles O19: the register map reads the image, whose bytes in each row of R151's table are slices of CVT_OUT. -/
theorem hostImageFollowsWidthAndByteOrder : Obligations.HostImageFollowsWidthAndByteOrder :=
  fun _ hv => ⟨indexValue_image hv, indexValue_image hv, indexValue_image hv, indexValue_image hv⟩

/-! The image right after a conversion. -/

theorem hostImage_latchConversion {s : State} {e : Endian} (he : s.hostEndian = e) (v : Word32) (w32 : Bool) (k : Nat) :
    hostImage (latchConversion v w32 s) k = imageByte e w32 v k := by
  rw [hostImage_of_valid rfl, latchConversion_hostEndian, he, latchConversion_cvtW32, latchConversion_cvtOut]

/-- The bytes above a 16-bit result are zero on either host (R151). -/
theorem imageByte_narrow_padding (e : Endian) (v : Word32) {k : Nat} (hk : ¬ k < 2) : imageByte e false v k = 0x00#8 := by
  cases e <;> exact if_neg hk

/-- After CVT16 a big-endian host sees the two wire bytes in order (R151, R152). -/
theorem image_cvt16_big {s : State} (he : s.hostEndian = .big) :
    hostImage (latchConversion (cvt16Value s) false s) 0 = s.cvtB0 ∧
      hostImage (latchConversion (cvt16Value s) false s) 1 = s.cvtB1 := by
  simp only [hostImage_latchConversion he, cvt16Value, be16_setWidth]
  exact ⟨byteOf_be32_1 _ _ _ _, byteOf_be32_0 _ _ _ _⟩

/-- After CVT16 a little-endian host sees the two wire bytes swapped (R151, R152). -/
theorem image_cvt16_little {s : State} (he : s.hostEndian = .little) :
    hostImage (latchConversion (cvt16Value s) false s) 0 = s.cvtB1 ∧
      hostImage (latchConversion (cvt16Value s) false s) 1 = s.cvtB0 := by
  simp only [hostImage_latchConversion he, cvt16Value, be16_setWidth]
  exact ⟨byteOf_be32_0 _ _ _ _, byteOf_be32_1 _ _ _ _⟩

/-- After CVT32 a big-endian host sees the four wire bytes in order (R151, R153). -/
theorem image_cvt32_big {s : State} (he : s.hostEndian = .big) :
    hostImage (latchConversion (cvt32Value s) true s) 0 = s.cvtB0 ∧
      hostImage (latchConversion (cvt32Value s) true s) 1 = s.cvtB1 ∧
      hostImage (latchConversion (cvt32Value s) true s) 2 = s.cvtB2 ∧
      hostImage (latchConversion (cvt32Value s) true s) 3 = s.cvtB3 := by
  simp only [hostImage_latchConversion he, cvt32Value]
  exact ⟨byteOf_be32_3 _ _ _ _, byteOf_be32_2 _ _ _ _, byteOf_be32_1 _ _ _ _, byteOf_be32_0 _ _ _ _⟩

/-- After CVT32 a little-endian host sees the four wire bytes reversed (R151, R153). -/
theorem image_cvt32_little {s : State} (he : s.hostEndian = .little) :
    hostImage (latchConversion (cvt32Value s) true s) 0 = s.cvtB3 ∧
      hostImage (latchConversion (cvt32Value s) true s) 1 = s.cvtB2 ∧
      hostImage (latchConversion (cvt32Value s) true s) 2 = s.cvtB1 ∧
      hostImage (latchConversion (cvt32Value s) true s) 3 = s.cvtB0 := by
  simp only [hostImage_latchConversion he, cvt32Value]
  exact ⟨byteOf_be32_0 _ _ _ _, byteOf_be32_1 _ _ _ _, byteOf_be32_2 _ _ _ _, byteOf_be32_3 _ _ _ _⟩

/-- Settles O20: the image after each conversion, host by host, and the padding of a 16-bit result. -/
theorem imageIsTheWireBytesOrTheirSwap : Obligations.ImageIsTheWireBytesOrTheirSwap := by
  intro s
  have padding (k : Nat) (hk : ¬ k < 2) : hostImage (latchConversion (cvt16Value s) false s) k = 0x00#8 :=
    (hostImage_latchConversion rfl _ _ _).trans (imageByte_narrow_padding _ _ hk)
  exact ⟨⟨_, exec_cvt16 s, padding 2 (by decide), padding 3 (by decide), image_cvt16_big, image_cvt16_little⟩,
    ⟨_, exec_cvt32 s, image_cvt32_big, image_cvt32_little⟩⟩

/-- Settles O21: the wire bytes of a value assemble to it, and a big-endian host's image is the wire bytes. -/
theorem conversionHasAnInverse : Obligations.ConversionHasAnInverse := by
  refine ⟨fun s v h0 h1 => ⟨_, exec_cvt16 s, ?_, fun he => ?_⟩,
    fun s v h0 h1 h2 h3 => ⟨_, exec_cvt32 s, ?_, fun he => ?_⟩⟩
  · rw [latchConversion_cvtOut, cvt16Value, h0, h1, be16_extract]
  · rw [← h0, ← h1]
    exact image_cvt16_big he
  · rw [latchConversion_cvtOut, cvt32Value, h0, h1, h2, h3, be32_extract]
  · rw [← h0, ← h1, ← h2, ← h3]
    exact image_cvt32_big he

end Sys2Proof.Machine
end

section
/-! PROOFS. The error latch: the commands that raise InsufficientData and what they leave, the commands that run while it is set,
and the steps that clear it (60_exceptions.md R170 to R177). -/

namespace Sys2Proof.Machine

/-! The commands that raise (R170 to R172). -/

/-- The byte at POS, the first of a primary header there, says that a secondary header follows (R88). -/
def SecondaryAnnounced (s : State) : Prop := ∃ p0, commandByte s s.pos = some p0 ∧ p0.getLsbD 3 = true

theorem secondaryAnnounced_iff {s : State} {p : HeaderBytes} (hp : headerBytes s s.pos = some p) :
    SecondaryAnnounced s ↔ p.b0.getLsbD 3 = true := by
  obtain ⟨h0, -⟩ := headerBytes_eq_some.1 hp
  simp [SecondaryAnnounced, h0]

/-- Everything a command that raises can have done. -/
inductive Raise (s : State) : Instr → State → Prop where
  | read (hr : remaining s < s.arg) : Raise s .read (raiseInsufficientData s.arg (remaining s) s)
  | firstHeader (i : Instr) (hi : i = .decph ∨ i = .decsh ∨ i = .decth) (hr : remaining s < 6) :
      Raise s i (raiseInsufficientData 6 (remaining s) s)
  | secondHeader (hr : 6 ≤ remaining s) (hr' : remaining s < 12) (hf : SecondaryAnnounced s) :
      Raise s .decth (raiseInsufficientData 6 (remaining s - 6) (countDraw (advance 6 s)))

namespace Effect

variable {s t : State} {i : Instr}

/-- A command that sets ERR has raised. -/
theorem raise (he : Effect s i t) (hs : s.err = false) (ht : t.err = true) : Raise s i t := by
  cases he with
  | readShort _ hr => exact .read hr
  | headerShort _ hi _ hr => exact .firstHeader _ hi hr
  | decthShort p _ hr hp hf hr' => exact .secondHeader hr hr' ((secondaryAnnounced_iff hp).2 hf)
  | start => simp at ht
  | _ => simp [hs] at ht

/-- DECTH sets ERR where a secondary header is announced and the view has not the bytes of both headers (R170). -/
theorem err_of_secondHeader (he : Effect s .decth t) (hs : s.err = false) (hr' : remaining s < 12)
    (hf : SecondaryAnnounced s) : t.err = true := by
  cases he with
  | headerShort | decthShort => rfl
  | latched _ _ herr => simp [hs] at herr
  | decthAlone p _ _ hp halone => cases halone.symm.trans ((secondaryAnnounced_iff hp).1 hf)
  | decthBoth _ _ _ hboth => exact absurd hr' (Nat.not_lt.2 hboth)

/-- Only START clears ERR (R177). -/
theorem err_stays (he : Effect s i t) (hi : i ≠ .start) (hs : s.err = true) : t.err = true := by
  cases he with
  | start => exact absurd rfl hi
  | readShort | headerShort | decthShort => rfl
  | _ => exact hs

end Effect

/-- What a command that raises records (R171). -/
theorem Raise.record {s t : State} {i : Instr} (h : Raise s i t) :
    t.errKind = 1#8 ∧ t.errNeeded = (if i = .read then s.arg else 6) ∧
      t.errAvail = (if i = .decth ∧ 6 ≤ remaining s then remaining s - 6 else remaining s) := by
  cases h with
  | read => exact ⟨rfl, rfl, rfl⟩
  | firstHeader _ hi hr =>
    have hread : i ≠ .read := by rintro rfl; simp at hi
    exact ⟨rfl, (if_neg hread).symm, (if_neg fun h => Nat.not_lt.2 h.2 hr).symm⟩
  | secondHeader hr => exact ⟨rfl, rfl, (if_pos ⟨rfl, hr⟩).symm⟩

/-- Settles O22: what raises is one of the effects in `Raise`, and with ERR clear each cause leaves its command no other. -/
theorem insufficientDataCauses : Obligations.InsufficientDataCauses := by
  intro i s t h hs
  have he := exec_effect h
  refine ⟨⟨fun ht => ?_, ?_⟩, fun ht => (he.raise hs ht).record⟩
  · cases he.raise hs ht with
    | read hr => exact .inl ⟨rfl, hr⟩
    | firstHeader _ hi hr => exact .inr (.inl ⟨hi, hr⟩)
    | secondHeader hr hr' hf => exact .inr (.inr ⟨rfl, hr, hr', hf⟩)
  · rintro (⟨rfl, hr⟩ | ⟨hi, hr⟩ | ⟨rfl, -, hr', hf⟩)
    · cases h.symm.trans (execRead_short hs hr)
      rfl
    · cases h.symm.trans (exec_header_short hi hs hr)
      rfl
    · exact he.err_of_secondHeader hs hr' hf

/-- Settles O23: each raise sets the record over the state at its read, with fewer bytes left than needed; before DECTH's second
read that state has the first one done. -/
theorem failureChangesOnlyTheErrorRecord : Obligations.FailureChangesOnlyTheErrorRecord := by
  intro i s t h hs ht
  cases (exec_effect h).raise hs ht with
  | read hr => exact ⟨.inl rfl, rfl, hr, id⟩
  | firstHeader _ _ hr => exact ⟨.inl rfl, rfl, hr, id⟩
  | secondHeader hr hr' hf =>
    refine ⟨.inr ⟨rfl, hr, hf, rfl⟩, (remaining_countDraw_advance 6 s).symm, ?fewer, fun _ => ?inside⟩
    case fewer =>
      rw [raiseInsufficientData_errAvail, raiseInsufficientData_errNeeded]
      omega
    case inside =>
      rw [remaining_eq] at hr
      simp only [raiseInsufficientData_pos, raiseInsufficientData_len, countDraw_pos, countDraw_len, advance_pos, advance_len]
      omega

/-! The error state (R173, R177). -/

/-- Settles O25: a command other than START keeps ERR set, and of the host's other actions only a reset touches it. -/
theorem errorStateLeftOnlyByStartOrReset : Obligations.ErrorStateLeftOnlyByStartOrReset := by
  intro s t hstep hs ht
  suffices hleft : (∃ rest, s.pending = .write 0x00 0x01 :: rest ∨ s.pending = .reset :: rest) ∨ t.err = true by
    exact hleft.resolve_right (by simp [ht])
  cases step_effect hstep with
  | reset rest hp => exact .inl ⟨rest, .inr hp⟩
  | command v i rest _ hp hv hd he =>
    by_cases hi : i = .start
    · subst hi
      rw [value_eq_opcode hv hd] at hp
      exact .inl ⟨rest, .inl hp⟩
    · exact .inr (he.err_stays hi hs)
  | operand _ _ _ _ _ _ _ hw => rcases hw with rfl | rfl | rfl | rfl | rfl <;> exact .inr hs
  | _ => exact .inr hs

/-- Settles O24: the four consuming commands test the latch first; START clears it, and the converter does not test it. -/
theorem errorLatchIsSticky : Obligations.ErrorLatchIsSticky := by
  intro s hs
  have header (i : Instr) (hi : i = .decph ∨ i = .decsh ∨ i = .decth) : exec i s = .next s := exec_header_latched hi hs
  exact ⟨execRead_latched hs, header .decph (by simp), header .decsh (by simp), header .decth (by simp),
    ⟨_, rfl, rfl, rfl, rfl, rfl⟩, ⟨_, exec_cvt16 s, cvt16Value_eq s⟩, ⟨_, exec_cvt32 s, cvt32Value_eq s⟩,
    fun _ _ _ hv hd hp => step_reserved hp hv hd⟩

end Sys2Proof.Machine
end

section
/-! PROOFS. Where a run can stop: the byte IBUF lacks at a header command, and the CMD write of more than 8 bits
(70_reset_and_hazards.md R192; 93_implementation_defined.md I5). While the host keeps its duties neither comes about. -/

namespace Sys2Proof.Machine

/-! The fault of a header command. -/

/-- IBUF lacks a byte between POS and LEN (R192 duty 1). -/
def MissesByte (s : State) : Prop := ∃ a, s.pos ≤ a ∧ a < s.len ∧ Memory.read s.ibuf a = none

theorem missesByte_of_headerBytes {s : State} (hr : 6 ≤ remaining s) (hp : headerBytes s s.pos = none) : MissesByte s := by
  obtain ⟨k, hk, hread⟩ := headerBytes_eq_none.1 hp
  rw [remaining_eq] at hr
  exact ⟨s.pos + k, by omega, by omega, hread⟩

/-- A byte missing after the first read of DECTH was missing before it. -/
theorem MissesByte.of_countDraw_advance {n : Nat} {s : State} (h : MissesByte (countDraw (advance n s))) : MissesByte s := by
  obtain ⟨a, hpos, hlen, hread⟩ := h
  exact ⟨a, Nat.le_trans (Nat.le_add_right _ n) hpos, hlen, hread⟩

/-- A view whose bytes are all readable misses none. -/
theorem not_missesByte_of_readable {s : State} (h : Readable s.ibuf s.len) : ¬ MissesByte s :=
  fun ⟨a, _, hlen, hread⟩ => h a hlen hread

/-- What a command can answer: a next state, or, of a header command with ERR clear and a byte missing, the fault that names it.
No command is refused. -/
inductive Answers (i : Instr) (s : State) : Host.Outcome State Fault Refusal → Prop where
  | next (t : State) : Answers i s (.next t)
  | fault (hi : i = .decph ∨ i = .decsh ∨ i = .decth) (he : s.err = false) (hm : MissesByte s) :
      Answers i s (.fault (.ibufUnreadable i))

section

variable {i : Instr} {s : State}

theorem readHeader_answers {use : HeaderBytes → State → Host.Outcome State Fault Refusal}
    (hi : i = .decph ∨ i = .decsh ∨ i = .decth) (he : s.err = false)
    (huse : ∀ p, Answers i s (use p (countDraw (advance 6 s)))) : Answers i s (readHeader i use s) := by
  by_cases hr : 6 ≤ remaining s
  · cases hp : headerBytes s s.pos with
    | none =>
      rw [readHeader_unreadable hr hp]
      exact .fault hi he (missesByte_of_headerBytes hr hp)
    | some p =>
      rw [readHeader_of_bytes hr hp]
      exact huse p
  · rw [readHeader_short (by omega)]
    exact .next _

theorem finishTelemetry_answers (w : PrimaryWords) (he : s.err = false) : Answers .decth s (finishTelemetry w s) := by
  rw [finishTelemetry_eq]
  split
  · exact readHeader_answers (by simp) he fun _ => .next _
  · exact .next _

theorem Answers.of_countDraw_advance {n : Nat} {o : Host.Outcome State Fault Refusal}
    (h : Answers i (countDraw (advance n s)) o) : Answers i s o := by
  cases h with
  | next t => exact .next t
  | fault hi he hm => exact .fault hi he hm.of_countDraw_advance

/-- A command that only runs while no error is latched answers a next state under the latch. -/
theorem latch_answers {body : State → Host.Outcome State Fault Refusal} (h : s.err = false → Answers i s (body s)) :
    Answers i s (if s.err then .next s else body s) := by
  cases he : s.err with
  | true => exact .next s
  | false => exact h he

theorem exec_answers (i : Instr) (s : State) : Answers i s (exec i s) := by
  cases i with
  | start | cvt16 | cvt32 => exact .next _
  | read =>
    change Answers .read s (execRead s)
    rcases execRead_cases s with ⟨-, h⟩ | ⟨-, -, h⟩ | ⟨-, -, h⟩ <;> rw [h] <;> exact .next _
  | decph =>
    change Answers .decph s (execDecph s)
    rw [execDecph_eq]
    exact latch_answers fun he => readHeader_answers (.inl rfl) he fun _ => .next _
  | decsh =>
    change Answers .decsh s (execDecsh s)
    rw [execDecsh_eq]
    exact latch_answers fun he => readHeader_answers (.inr (.inl rfl)) he fun _ => .next _
  | decth =>
    change Answers .decth s (execDecth s)
    rw [execDecth_eq]
    exact latch_answers fun he => readHeader_answers (.inr (.inr rfl)) he fun p =>
      (finishTelemetry_answers (s := countDraw (advance 6 s)) (decodePrimary p) he).of_countDraw_advance

end

/-! The step. -/

/-- What a step can answer: a next state, what a command answers, or the refusal of a CMD write of more than 8 bits. -/
inductive StepAnswers (s : State) : Host.Outcome State Fault Refusal → Prop where
  | next (t : State) : StepAnswers s (.next t)
  | command {v : Nat} {i : Instr} {rest : List HostAction} {o : Host.Outcome State Fault Refusal}
      (hp : s.pending = .write 0x00 v :: rest) (hd : decode (BitVec.ofNat 8 v) = .command i)
      (ho : Answers i (setPending rest s) o) : StepAnswers s o
  | overwide {v : Nat} {rest : List HostAction} (hp : s.pending = .write 0x00 v :: rest) (hv : 256 ≤ v) :
      StepAnswers s (.refused (.overwideCommand v))

theorem step_answers (s : State) : StepAnswers s (step s) := by
  cases hp : s.pending with
  | nil =>
    rw [step_idle hp]
    exact .next s
  | cons a rest =>
    rw [step_of_pending hp]
    cases a with
    | write index v =>
      by_cases h0 : index = 0x00
      · subst h0
        rw [perform_write_cmd]
        rcases issueCommand_cases v (setPending rest s) with ⟨hv, h⟩ | ⟨-, -, -, h⟩ | ⟨-, i, hd, h⟩ <;> rw [h]
        · exact .overwide hp hv
        · exact .next _
        · exact .command hp hd (exec_answers i _)
      · change StepAnswers s (writeIndex index v (setPending rest s))
        rcases writeIndex_cases v (setPending rest s) h0 with ⟨-, h⟩ | ⟨-, h | h | h | h | h⟩ <;>
          rw [h] <;> exact .next _
    | read | bind | store | reset => exact .next _

/-- Settles O43: of what a step can answer, only a header command's fault and the refusal of an overwide command are stops. -/
theorem stepStopsOnlyOnABrokenDuty : Obligations.StepStopsOnlyOnABrokenDuty := by
  intro s
  have hs := step_answers s
  refine ⟨fun f hf => ?fault, fun r hr => ?refused⟩
  case fault =>
    rw [hf] at hs
    cases hs with
    | command hp hd ho =>
      cases ho with
      | fault hi he hm => exact ⟨_, _, _, rfl, hi, hp, (encode_of_decode hd).symm, he, hm⟩
  case refused =>
    rw [hr] at hs
    cases hs with
    | command _ _ ho => cases ho
    | overwide hp hv => exact ⟨_, _, rfl, hv, hp⟩

/-! The duties of the host (R192). -/

/-- The host keeps its duties through every pending action, and the pass has every byte it needs for as long as its buffer has
been kept. What a run of a dutiful host preserves. -/
def State.DutiesAhead (s : State) : Prop :=
  ∃ kept : Prop, (kept → Readable s.ibuf s.len) ∧ KeepsDuties s.addrW kept s.arg s.len s.ibuf s.pending

theorem State.Dutiful.dutiesAhead {s : State} (h : s.Dutiful) : s.DutiesAhead := ⟨s.BufferKept, And.left, h⟩

section

variable {addrW : Nat} {kept : Prop} {arg len : Nat} {ibuf : Memory} {rest : List HostAction}

/-- What the duties ask of a write to CMD. -/
theorem keepsDuties_command {v : Nat} : KeepsDuties addrW kept arg len ibuf (.write 0x00 v :: rest) ↔ v < 256 ∧
    (if v = 0x01 then Readable ibuf arg ∧ KeepsDuties addrW True arg arg ibuf rest
      else (v ∈ [0x02, 0x10, 0x11, 0x12] → kept) ∧ KeepsDuties addrW kept arg len ibuf rest) := by
  rw [KeepsDuties, if_pos rfl]

theorem keepsDuties_start (h : KeepsDuties addrW kept arg len ibuf (.write 0x00 0x01 :: rest)) :
    Readable ibuf arg ∧ KeepsDuties addrW True arg arg ibuf rest :=
  (keepsDuties_command.1 h).2

theorem keepsDuties_notStart {v : Nat} (h : KeepsDuties addrW kept arg len ibuf (.write 0x00 v :: rest)) (hv : v ≠ 0x01) :
    (v ∈ [0x02, 0x10, 0x11, 0x12] → kept) ∧ KeepsDuties addrW kept arg len ibuf rest := by
  have h' := (keepsDuties_command.1 h).2
  rwa [if_neg hv] at h'

theorem keepsDuties_arg {v : Nat} (h : KeepsDuties addrW kept arg len ibuf (.write 0x01 v :: rest)) :
    KeepsDuties addrW kept (v % 2 ^ addrW) len ibuf rest := h

theorem keepsDuties_operand {index v : Nat} (h : KeepsDuties addrW kept arg len ibuf (.write index v :: rest))
    (h0 : index ≠ 0x00) (h1 : index ≠ 0x01) : KeepsDuties addrW kept arg len ibuf rest := by
  rwa [KeepsDuties, if_neg h0, if_neg h1] at h

end

theorem encode_toNat_ne_start {i : Instr} (hi : i ≠ .start) : (encode i).toNat ≠ 0x01 := by
  cases i with
  | start => exact absurd rfl hi
  | _ => decide

/-- The header commands are commands of a pass (R192 duty 4). -/
theorem encode_toNat_mem_pass {i : Instr} (hi : i = .decph ∨ i = .decsh ∨ i = .decth) :
    (encode i).toNat ∈ [0x02, 0x10, 0x11, 0x12] := by
  rcases hi with rfl | rfl | rfl <;> decide

/-- A buffer that agrees with a readable one is readable. -/
theorem Readable.of_agree {old new : Memory} {n : Nat} (h : Readable old n) (ha : Agree old new n) : Readable new n :=
  fun a hlt => ha a hlt ▸ h a hlt

/-- A store takes no byte away. -/
theorem Readable.write {m : Memory} {n : Nat} (h : Readable m n) (offset : Nat) (byte : Byte) :
    Readable (Memory.write m offset byte) n := by
  intro a hlt
  rw [Memory.read_write]
  split
  · exact Option.some_ne_none byte
  · exact h a hlt

/-- START begins a pass whose bytes the buffer has; every other command leaves the pass and the buffer. -/
theorem Effect.dutiesAhead {s t : State} {v : Nat} {i : Instr} {rest : List HostAction} (he : Effect (setPending rest s) i t)
    (hp : s.pending = .write 0x00 v :: rest) (hv : v = (encode i).toNat) (h : s.DutiesAhead) : t.DutiesAhead := by
  obtain ⟨kept, hread, hduties⟩ := h
  rw [hp] at hduties
  by_cases hi : i = .start
  · subst hi hv
    obtain ⟨harg, hrest⟩ := keepsDuties_start hduties
    cases he with
    | start => exact ⟨True, fun _ => harg, hrest⟩
    | latched _ hi => simp at hi
    | headerShort _ hi => simp at hi
  · obtain ⟨-, hrest⟩ := keepsDuties_notStart hduties (hv ▸ encode_toNat_ne_start hi)
    obtain ⟨harg, -, -, -, -, hwidth, -, hbuf, hpending, -⟩ := he.host_side_kept
    obtain ⟨hlen, -⟩ := he.len_kept hi
    refine ⟨kept, ?_, ?_⟩
    · rw [hbuf, hlen]
      exact hread
    · rw [hwidth, harg, hlen, hbuf, hpending]
      exact hrest

/-- Every host action of a dutiful host leaves one. -/
theorem StepEffect.dutiesAhead {s t : State} (he : StepEffect s t) (h : s.DutiesAhead) : t.DutiesAhead := by
  obtain ⟨kept, hread, hduties⟩ := h
  cases he with
  | idle => exact ⟨kept, hread, hduties⟩
  | command v i rest _ hp hv hd he => exact he.dutiesAhead hp (value_eq_opcode hv hd) ⟨kept, hread, hduties⟩
  | reserved v opc rest hp hv hd =>
    rw [hp] at hduties
    have hne : v ≠ 0x01 := by
      rintro rfl
      cases hd
    exact ⟨kept, hread, (keepsDuties_notStart hduties hne).2⟩
  | arg v rest hp =>
    rw [hp] at hduties
    exact ⟨kept, hread, keepsDuties_arg hduties⟩
  | operand index v rest _ hp h0 h1 ht =>
    rw [hp] at hduties
    have hrest := keepsDuties_operand hduties h0 h1
    rcases ht with rfl | rfl | rfl | rfl | rfl <;> exact ⟨kept, hread, hrest⟩
  | read index rest hp =>
    rw [hp] at hduties
    exact ⟨kept, hread, hduties⟩
  | bind bytes rest hp =>
    rw [hp] at hduties
    exact ⟨_, fun ⟨hkept, hagree⟩ => (hread hkept).of_agree hagree, hduties⟩
  | store offset byte rest hp =>
    rw [hp] at hduties
    exact ⟨_, fun ⟨hkept, _⟩ => (hread hkept).write offset byte, hduties⟩
  | reset rest hp =>
    rw [hp] at hduties
    exact ⟨True, fun _ a ha => absurd ha (Nat.not_lt_zero a), hduties⟩

/-- A header command the host may issue misses no byte, and a CMD value the host may write fits 8 bits. -/
theorem State.DutiesAhead.step_next {s : State} (h : s.DutiesAhead) : ∃ t, step s = .next t := by
  obtain ⟨kept, hread, hduties⟩ := h
  cases hstep : step s with
  | next t => exact ⟨t, rfl⟩
  | fault f =>
    obtain ⟨i, v, rest, -, hi, hp, hcode, -, hmiss⟩ := (stepStopsOnlyOnABrokenDuty s).1 f hstep
    rw [hp] at hduties
    obtain ⟨hlt, -⟩ := keepsDuties_command.1 hduties
    have hv : v = (encode i).toNat := value_eq_opcode hlt (hcode ▸ decode_encode i)
    have hne : i ≠ .start := by
      rintro rfl
      simp at hi
    obtain ⟨hkept, -⟩ := keepsDuties_notStart hduties (hv ▸ encode_toNat_ne_start hne)
    exact absurd hmiss (not_missesByte_of_readable (hread (hkept (hv ▸ encode_toNat_mem_pass hi))))
  | refused r =>
    obtain ⟨v, rest, -, hv, hp⟩ := (stepStopsOnlyOnABrokenDuty s).2 r hstep
    rw [hp] at hduties
    exact absurd (keepsDuties_command.1 hduties).1 (Nat.not_lt.2 hv)

/-- A run of a dutiful host goes on, however long. -/
theorem State.DutiesAhead.runsOn {s : State} (h : s.DutiesAhead) : s.RunsOn := by
  intro k
  induction k generalizing s with
  | zero => exact ⟨s, run_zero s⟩
  | succ k ih =>
    obtain ⟨t, hstep⟩ := h.step_next
    rw [run_of_next hstep]
    exact ih ((step_effect hstep).dutiesAhead h)

/-- Settles O44: every step keeps the duties ahead, and while they stand a step has a next state. -/
theorem dutifulHostRunsOn : Obligations.DutifulHostRunsOn :=
  fun _ hs => hs.dutiesAhead.runsOn

end Sys2Proof.Machine
end

section
/-! PROOFS. The fault of a header command at a byte IBUF does not have, and what the commands do right after a reset
(93_implementation_defined.md I5; 70_reset_and_hazards.md R191). -/

namespace Sys2Proof.Machine

/-! The fault. -/

/-- With ERR clear a header command begins with the read of a header. -/
theorem exec_header_eq_readHeader {i : Instr} {s : State} (hi : i = .decph ∨ i = .decsh ∨ i = .decth) (he : s.err = false) :
    ∃ use, exec i s = readHeader i use s := by
  have hne : ¬ s.err = true := by simp [he]
  rcases hi with rfl | rfl | rfl
  · exact ⟨_, (execDecph_eq s).trans (if_neg hne)⟩
  · exact ⟨_, (execDecsh_eq s).trans (if_neg hne)⟩
  · exact ⟨_, (execDecth_eq s).trans (if_neg hne)⟩

/-- A header command stops where a byte of its first read is missing (I5; log 5). -/
theorem exec_header_unreadable {i : Instr} {s : State} (hi : i = .decph ∨ i = .decsh ∨ i = .decth) (he : s.err = false)
    (hr : 6 ≤ remaining s) (hp : headerBytes s s.pos = none) : exec i s = .fault (.ibufUnreadable i) := by
  obtain ⟨use, huse⟩ := exec_header_eq_readHeader hi he
  rw [huse, readHeader_unreadable hr hp]

/-- DECTH stops where a byte of its second read is missing. -/
theorem finishTelemetry_unreadable {s : State} {w : PrimaryWords} (hw : hasSecondaryHeader w.w0 = true)
    (hr : 6 ≤ remaining s) (hp : headerBytes s s.pos = none) :
    finishTelemetry w s = .fault (.ibufUnreadable .decth) := by
  rw [finishTelemetry_eq, if_pos hw, readHeader_unreadable hr hp]

/-- Settles O13: a read one of whose bytes is missing gets no header; before DECTH's second read the first one is done. -/
theorem headerCommandsFaultOnAMissingByte : Obligations.HeaderCommandsFaultOnAMissingByte := by
  intro s he hr
  refine ⟨fun hmiss => ?first, fun hread hr' hflag hmiss => ?second⟩
  case first =>
    have hp : headerBytes s s.pos = none := headerBytes_eq_none.2 hmiss
    exact ⟨exec_header_unreadable (by simp) he hr hp, exec_header_unreadable (by simp) he hr hp,
      exec_header_unreadable (by simp) he hr hp⟩
  case second =>
    obtain ⟨p, hp⟩ : ∃ p, headerBytes s s.pos = some p := by
      rw [← Option.ne_none_iff_exists', ne_eq, headerBytes_eq_none]
      rintro ⟨k, hk, hnone⟩
      exact hread k hk hnone
    have hq : headerBytes (countDraw (advance 6 s)) (s.pos + 6) = none := by
      obtain ⟨k, hge, hlt, hnone⟩ := hmiss
      refine headerBytes_eq_none.2 ⟨k - 6, by omega, ?_⟩
      rwa [show s.pos + 6 + (k - 6) = s.pos + k by omega]
    have hleft : remaining (countDraw (advance 6 s)) = s.len - s.pos - 6 := remaining_countDraw_advance 6 s
    rw [exec_decth_of_bytes he hr hp]
    exact finishTelemetry_unreadable
      ((hasSecondaryHeader_decodePrimary p).trans ((secondaryAnnounced_iff hp).1 hflag)) (by omega) hq

/-! Right after a reset. -/

/-- `State.reset` and the state of a reset action are both `State.resetOf`. -/
theorem eq_resetOf_of_afterReset {r : State}
    (h : r = State.reset ∨ ∃ s rest, s.pending = .reset :: rest ∧ step s = .next r) :
    ∃ w e m d l x, r = State.resetOf w e m d l x := by
  rcases h with rfl | ⟨s, rest, hp, hstep⟩
  · exact ⟨_, _, _, _, _, _, rfl⟩
  · rw [step_reset hp] at hstep
    cases hstep
    exact ⟨_, _, _, _, _, _, rfl⟩

/-- Settles O39: after a reset the view is empty and ERR is clear, which leaves each command one case. -/
theorem commandsRightAfterReset : Obligations.CommandsRightAfterReset := by
  intro r hreset
  obtain ⟨w, e, m, d, l, x, rfl⟩ := eq_resetOf_of_afterReset hreset
  refine ⟨fun n hn => execRead_short rfl hn, execRead_done rfl (Nat.zero_le _),
    fun i hi => exec_header_short hi rfl (Nat.succ_pos 5), fun b0 b1 => cvt16ConvertsTwoBytes.2 _,
    fun b0 b1 b2 b3 => cvt32ConvertsFourBytes.2 _, ⟨rfl, rfl, rfl, rfl, rfl, rfl⟩, fun s hs => ?_⟩
  exact ⟨_, (startBindsViewAndClearsResults.2 s).1, rfl, hs, hs, rfl, rfl, rfl, rfl, rfl, rfl, rfl, rfl, rfl, rfl, rfl, rfl,
    rfl, rfl, rfl, rfl⟩

end Sys2Proof.Machine
end
